-- ==== Sys2Proof/Word.lean ====
section
/-! DEFINITION. The machine's two word types (00_scope.md R6): bytes and 16-bit addresses. -/

namespace Sys2Proof

/-- A memory cell's content, a register A, X or Y, the status register, an operand byte (R6). -/
abbrev Byte := BitVec 8

/-- An address and the program counter (R6, R34). -/
abbrev Addr := BitVec 16

end Sys2Proof
end

