-- ==== Sys2Proof/Machine/Bits.lean ====
section
/-! DEFINITION. The conversions of 00_scope.md R9 between bytes and 16-bit words, and the two's complement reading of a byte. -/

namespace Sys2Proof

/-- `zext_16` (R9): the byte widened with upper byte 0. -/
def zext16 (b : Byte) : Addr := b.setWidth 16

/-- `hi:lo` (R9): the word hi*256 + lo. -/
def hiLo (hi lo : Byte) : Addr := BitVec.ofNat 16 (hi.toNat * 256 + lo.toNat)

/-- `v mod 256` (R40): the byte that stands at the lower address (little-endian, R42). -/
def loByte (w : Addr) : Byte := BitVec.ofNat 8 (w.toNat % 256)

/-- `v div 256` (R40): the byte that stands at the higher address. -/
def hiByte (w : Addr) : Byte := BitVec.ofNat 8 (w.toNat / 256)

/-- `s8` (R9): the byte read as two's complement. -/
def s8 (b : Byte) : Int := if b.toNat < 128 then b.toNat else (b.toNat : Int) - 256

end Sys2Proof
end

