-- ==== Sys2Proof/Syntax.lean ====
section
/-! DEFINITION. The instructions as syntax: one constructor of `Instr` per row of spec/opcode_table.json (30_encoding.md R72),
with the mnemonics (R93), the ten addressing modes (R58), decoded operands, and the opcode descriptors (R70). -/

namespace Sys2Proof

/-- The six mnemonics (R2, R93). -/
inductive Mnemonic where
  | lda | sta | tax | inx | adc | brk
  deriving DecidableEq, Repr

/-- The closed set of ten addressing modes (R58). -/
inductive Mode where
  | immediate | zeroPage | zeroPageX | zeroPageY
  | absolute | absoluteX | absoluteY
  | indirectX | indirectY | noneAddressing
  deriving DecidableEq, Repr

/-- An addressing mode with its operand bytes assembled (R57). -/
inductive Operand where
  | immediate (value : Byte)
  | zeroPage (zp : Byte)
  | zeroPageX (zp : Byte)
  | zeroPageY (zp : Byte)
  | absolute (base : Addr)
  | absoluteX (base : Addr)
  | absoluteY (base : Addr)
  | indirectX (zp : Byte)
  | indirectY (zp : Byte)
  | noneAddressing
  deriving DecidableEq, Repr

/-- The 26 instruction forms (R72). A byte operand is the immediate value or the zero-page address, a word operand the
absolute address hi:lo (R54, R57). -/
inductive Instr where
  /-- 0x00 (R129) -/
  | brk
  /-- 0x61 (R127) -/
  | adcIndirectX (zp : Byte)
  /-- 0x65 (R122) -/
  | adcZeroPage (zp : Byte)
  /-- 0x69 (R121) -/
  | adcImmediate (value : Byte)
  /-- 0x6D (R124) -/
  | adcAbsolute (base : Addr)
  /-- 0x71 (R128) -/
  | adcIndirectY (zp : Byte)
  /-- 0x75 (R123) -/
  | adcZeroPageX (zp : Byte)
  /-- 0x79 (R126) -/
  | adcAbsoluteY (base : Addr)
  /-- 0x7D (R125) -/
  | adcAbsoluteX (base : Addr)
  /-- 0x81 (R109) -/
  | staIndirectX (zp : Byte)
  /-- 0x85 (R104) -/
  | staZeroPage (zp : Byte)
  /-- 0x8D (R106) -/
  | staAbsolute (base : Addr)
  /-- 0x91 (R110) -/
  | staIndirectY (zp : Byte)
  /-- 0x95 (R105) -/
  | staZeroPageX (zp : Byte)
  /-- 0x99 (R108) -/
  | staAbsoluteY (base : Addr)
  /-- 0x9D (R107) -/
  | staAbsoluteX (base : Addr)
  /-- 0xA1 (R101) -/
  | ldaIndirectX (zp : Byte)
  /-- 0xA5 (R96) -/
  | ldaZeroPage (zp : Byte)
  /-- 0xA9 (R95) -/
  | ldaImmediate (value : Byte)
  /-- 0xAA (R112) -/
  | tax
  /-- 0xAD (R98) -/
  | ldaAbsolute (base : Addr)
  /-- 0xB1 (R102) -/
  | ldaIndirectY (zp : Byte)
  /-- 0xB5 (R97) -/
  | ldaZeroPageX (zp : Byte)
  /-- 0xB9 (R100) -/
  | ldaAbsoluteY (base : Addr)
  /-- 0xBD (R99) -/
  | ldaAbsoluteX (base : Addr)
  /-- 0xE8 (R113) -/
  | inx
  deriving DecidableEq, Repr

/-- An opcode descriptor (R70). `baseCycles` is static table data that nothing reads (R169). -/
structure Descriptor where
  byte : Byte
  mnemonic : Mnemonic
  mode : Mode
  length : Nat
  baseCycles : Nat
  deriving DecidableEq, Repr

end Sys2Proof
end

