-- ==== Sys2Proof/Machine/Forms.lean ====
section
/-! DEFINITION. What an instruction form is made of: its mnemonic, its operand with the addressing mode, its length
(30_encoding.md R69, R72). -/

namespace Sys2Proof

/-- The number of operand bytes a mode reads (R69). -/
def Mode.operandBytes : Mode → Nat
  | .noneAddressing => 0
  | .immediate | .zeroPage | .zeroPageX | .zeroPageY | .indirectX | .indirectY => 1
  | .absolute | .absoluteX | .absoluteY => 2

/-- The addressing mode of a decoded operand. -/
def Operand.mode : Operand → Mode
  | .immediate _ => .immediate
  | .zeroPage _ => .zeroPage
  | .zeroPageX _ => .zeroPageX
  | .zeroPageY _ => .zeroPageY
  | .absolute _ => .absolute
  | .absoluteX _ => .absoluteX
  | .absoluteY _ => .absoluteY
  | .indirectX _ => .indirectX
  | .indirectY _ => .indirectY
  | .noneAddressing => .noneAddressing

/-- The mnemonic column of R72. -/
def Instr.mnemonic : Instr → Mnemonic
  | .brk => .brk
  | .tax => .tax
  | .inx => .inx
  | .adcIndirectX _ | .adcZeroPage _ | .adcImmediate _ | .adcAbsolute _
  | .adcIndirectY _ | .adcZeroPageX _ | .adcAbsoluteY _ | .adcAbsoluteX _ => .adc
  | .staIndirectX _ | .staZeroPage _ | .staAbsolute _ | .staIndirectY _
  | .staZeroPageX _ | .staAbsoluteY _ | .staAbsoluteX _ => .sta
  | .ldaIndirectX _ | .ldaZeroPage _ | .ldaImmediate _ | .ldaAbsolute _
  | .ldaIndirectY _ | .ldaZeroPageX _ | .ldaAbsoluteY _ | .ldaAbsoluteX _ => .lda

/-- The mode column of R72, with the operand bytes of the instruction at hand. -/
def Instr.operand : Instr → Operand
  | .brk | .tax | .inx => .noneAddressing
  | .adcImmediate v | .ldaImmediate v => .immediate v
  | .adcZeroPage b | .staZeroPage b | .ldaZeroPage b => .zeroPage b
  | .adcZeroPageX b | .staZeroPageX b | .ldaZeroPageX b => .zeroPageX b
  | .adcAbsolute w | .staAbsolute w | .ldaAbsolute w => .absolute w
  | .adcAbsoluteX w | .staAbsoluteX w | .ldaAbsoluteX w => .absoluteX w
  | .adcAbsoluteY w | .staAbsoluteY w | .ldaAbsoluteY w => .absoluteY w
  | .adcIndirectX b | .staIndirectX b | .ldaIndirectX b => .indirectX b
  | .adcIndirectY b | .staIndirectY b | .ldaIndirectY b => .indirectY b

def Instr.mode (i : Instr) : Mode := i.operand.mode

/-- The instruction's length in bytes (R53, R69): the opcode byte and the operand bytes of its mode. -/
def Instr.length (i : Instr) : Nat := 1 + i.mode.operandBytes

end Sys2Proof
end

