-- ==== Sys2Proof/WellFormed.lean ====
section
/-! DEFINITION. The construction-time validation of the opcode table (30_encoding.md R71, R73) and of an instruction.
Operands are bytes and words, and "any byte value is a valid operand" (R76), so an instruction's check is the one of the
form it belongs to. -/

namespace Sys2Proof

/-- The modes each mnemonic may have (R72, R73, R111): none but NoneAddressing for TAX, INX and BRK; never NoneAddressing
or ZeroPageY for LDA, STA and ADC; no Immediate for STA. -/
def Mnemonic.admits : Mnemonic → Mode → Bool
  | .tax, m | .inx, m | .brk, m => m == .noneAddressing
  | .lda, m | .adc, m => m != .noneAddressing && m != .zeroPageY
  | .sta, m => m != .noneAddressing && m != .zeroPageY && m != .immediate

/-- A descriptor's mode fits its mnemonic and its length the operand bytes of the mode (R73), so it is 1 to 3 (R70). -/
def Descriptor.wf (d : Descriptor) : Bool :=
  d.mnemonic.admits d.mode && d.length == 1 + d.mode.operandBytes

/-- At most one descriptor per raw byte, and each one well-formed (R71, R73). -/
def Descriptor.tableWf : List Descriptor → Bool
  | [] => true
  | d :: t => d.wf && t.all (fun e => e.byte != d.byte) && Descriptor.tableWf t

/-- The instruction's form is one the table may hold. -/
def Instr.wf (i : Instr) : Bool := i.mnemonic.admits i.mode

end Sys2Proof
end

