-- ==== Sys2Proof/Decode.lean ====
section
/-! DEFINITION. The opcode table of 30_encoding.md R72, the decoder that looks the whole opcode byte up in it (R55), and
the encoder, which writes the opcode bytes out again form by form, so that the round trip compares two readings. -/

namespace Sys2Proof

/-- R72, the rows 0x00 to 0x7D: BRK and ADC. -/
def tableBrkAdc : List Descriptor := [
  ⟨0x00#8, .brk, .noneAddressing, 1, 7⟩,
  ⟨0x61#8, .adc, .indirectX, 2, 6⟩,
  ⟨0x65#8, .adc, .zeroPage, 2, 3⟩,
  ⟨0x69#8, .adc, .immediate, 2, 2⟩,
  ⟨0x6D#8, .adc, .absolute, 3, 4⟩,
  ⟨0x71#8, .adc, .indirectY, 2, 5⟩,
  ⟨0x75#8, .adc, .zeroPageX, 2, 4⟩,
  ⟨0x79#8, .adc, .absoluteY, 3, 4⟩,
  ⟨0x7D#8, .adc, .absoluteX, 3, 4⟩]

/-- R72, the rows 0x81 to 0x9D: STA. -/
def tableSta : List Descriptor := [
  ⟨0x81#8, .sta, .indirectX, 2, 6⟩,
  ⟨0x85#8, .sta, .zeroPage, 2, 3⟩,
  ⟨0x8D#8, .sta, .absolute, 3, 4⟩,
  ⟨0x91#8, .sta, .indirectY, 2, 6⟩,
  ⟨0x95#8, .sta, .zeroPageX, 2, 4⟩,
  ⟨0x99#8, .sta, .absoluteY, 3, 5⟩,
  ⟨0x9D#8, .sta, .absoluteX, 3, 5⟩]

/-- R72, the rows 0xA1 to 0xE8: LDA, TAX and INX. -/
def tableLdaTaxInx : List Descriptor := [
  ⟨0xA1#8, .lda, .indirectX, 2, 6⟩,
  ⟨0xA5#8, .lda, .zeroPage, 2, 3⟩,
  ⟨0xA9#8, .lda, .immediate, 2, 2⟩,
  ⟨0xAA#8, .tax, .noneAddressing, 1, 2⟩,
  ⟨0xAD#8, .lda, .absolute, 3, 4⟩,
  ⟨0xB1#8, .lda, .indirectY, 2, 5⟩,
  ⟨0xB5#8, .lda, .zeroPageX, 2, 4⟩,
  ⟨0xB9#8, .lda, .absoluteY, 3, 4⟩,
  ⟨0xBD#8, .lda, .absoluteX, 3, 4⟩,
  ⟨0xE8#8, .inx, .noneAddressing, 1, 2⟩]

/-- The opcode map (R72). -/
def opcodeTable : List Descriptor := tableBrkAdc ++ tableSta ++ tableLdaTaxInx

/-- `TABLE[op]` (R84): the descriptor of a raw byte, or none (R75). -/
def lookup (op : Byte) : Option Descriptor := opcodeTable.find? (fun d => d.byte == op)

/-- Why bytes are no instruction. -/
inductive DecodeRefusal where
  /-- there is no opcode byte -/
  | empty
  /-- the byte has no descriptor (R75) -/
  | undecodable (byte : Byte)
  /-- the list ends before the operand bytes of the descriptor's mode -/
  | truncated (byte : Byte)
  /-- the descriptor pairs a mnemonic with a mode it has no form for, which R73 rules out for the table of R72 -/
  | noForm (mnemonic : Mnemonic) (byte : Byte)
  deriving DecidableEq, Repr

/-- The operand of a mode, taken from the bytes that follow the opcode (R54, R57), and the bytes left over. -/
def operandOf : Mode → List Byte → Option (Operand × List Byte)
  | .noneAddressing, t => some (.noneAddressing, t)
  | .immediate, b :: t => some (.immediate b, t)
  | .zeroPage, b :: t => some (.zeroPage b, t)
  | .zeroPageX, b :: t => some (.zeroPageX b, t)
  | .zeroPageY, b :: t => some (.zeroPageY b, t)
  | .indirectX, b :: t => some (.indirectX b, t)
  | .indirectY, b :: t => some (.indirectY b, t)
  | .absolute, lo :: hi :: t => some (.absolute (hiLo hi lo), t)
  | .absoluteX, lo :: hi :: t => some (.absoluteX (hiLo hi lo), t)
  | .absoluteY, lo :: hi :: t => some (.absoluteY (hiLo hi lo), t)
  | _, _ => none

/-- The instruction form of a mnemonic and an operand, where there is one. -/
def formOf : Mnemonic → Operand → Option Instr
  | .brk, .noneAddressing => some .brk
  | .tax, .noneAddressing => some .tax
  | .inx, .noneAddressing => some .inx
  | .lda, .immediate v => some (.ldaImmediate v)
  | .lda, .zeroPage b => some (.ldaZeroPage b)
  | .lda, .zeroPageX b => some (.ldaZeroPageX b)
  | .lda, .absolute w => some (.ldaAbsolute w)
  | .lda, .absoluteX w => some (.ldaAbsoluteX w)
  | .lda, .absoluteY w => some (.ldaAbsoluteY w)
  | .lda, .indirectX b => some (.ldaIndirectX b)
  | .lda, .indirectY b => some (.ldaIndirectY b)
  | .sta, .zeroPage b => some (.staZeroPage b)
  | .sta, .zeroPageX b => some (.staZeroPageX b)
  | .sta, .absolute w => some (.staAbsolute w)
  | .sta, .absoluteX w => some (.staAbsoluteX w)
  | .sta, .absoluteY w => some (.staAbsoluteY w)
  | .sta, .indirectX b => some (.staIndirectX b)
  | .sta, .indirectY b => some (.staIndirectY b)
  | .adc, .immediate v => some (.adcImmediate v)
  | .adc, .zeroPage b => some (.adcZeroPage b)
  | .adc, .zeroPageX b => some (.adcZeroPageX b)
  | .adc, .absolute w => some (.adcAbsolute w)
  | .adc, .absoluteX w => some (.adcAbsoluteX w)
  | .adc, .absoluteY w => some (.adcAbsoluteY w)
  | .adc, .indirectX b => some (.adcIndirectX b)
  | .adc, .indirectY b => some (.adcIndirectY b)
  | _, _ => none

/-- The decoder: the instruction at the head of a list of bytes and the bytes after it (R53, R55, R77). -/
def decode : List Byte → Except DecodeRefusal (Instr × List Byte)
  | [] => .error .empty
  | op :: rest =>
    match lookup op with
    | none => .error (.undecodable op)
    | some d =>
      match operandOf d.mode rest with
      | none => .error (.truncated op)
      | some (o, after) =>
        match formOf d.mnemonic o with
        | none => .error (.noForm d.mnemonic op)
        | some i => .ok (i, after)

/-- The opcode byte of each form, written out from the encodings of R95 to R129. -/
def Instr.opcode : Instr → Byte
  | .brk => 0x00#8
  | .adcIndirectX _ => 0x61#8
  | .adcZeroPage _ => 0x65#8
  | .adcImmediate _ => 0x69#8
  | .adcAbsolute _ => 0x6D#8
  | .adcIndirectY _ => 0x71#8
  | .adcZeroPageX _ => 0x75#8
  | .adcAbsoluteY _ => 0x79#8
  | .adcAbsoluteX _ => 0x7D#8
  | .staIndirectX _ => 0x81#8
  | .staZeroPage _ => 0x85#8
  | .staAbsolute _ => 0x8D#8
  | .staIndirectY _ => 0x91#8
  | .staZeroPageX _ => 0x95#8
  | .staAbsoluteY _ => 0x99#8
  | .staAbsoluteX _ => 0x9D#8
  | .ldaIndirectX _ => 0xA1#8
  | .ldaZeroPage _ => 0xA5#8
  | .ldaImmediate _ => 0xA9#8
  | .tax => 0xAA#8
  | .ldaAbsolute _ => 0xAD#8
  | .ldaIndirectY _ => 0xB1#8
  | .ldaZeroPageX _ => 0xB5#8
  | .ldaAbsoluteY _ => 0xB9#8
  | .ldaAbsoluteX _ => 0xBD#8
  | .inx => 0xE8#8

/-- The operand bytes of formats F1, F2 and F3 (R54): an absolute address stands low byte first (R42). -/
def Operand.bytes : Operand → List Byte
  | .noneAddressing => []
  | .immediate b | .zeroPage b | .zeroPageX b | .zeroPageY b | .indirectX b | .indirectY b => [b]
  | .absolute w | .absoluteX w | .absoluteY w => [loByte w, hiByte w]

/-- The encoder: the bytes of an instruction in the order they stand in memory (R53, R54). -/
def encode (i : Instr) : List Byte := i.opcode :: i.operand.bytes

/-- The bytes of a word numbered as spec/opcode_table.json numbers it (the first byte is bits 7..0), every bit above
`nbits` zero, as long as the longest instruction (3 bytes, R6). -/
def tableWordBytes (nbits w : Nat) : List Byte :=
  let v := w % 2 ^ nbits
  [BitVec.ofNat 8 v, BitVec.ofNat 8 (v / 256), BitVec.ofNat 8 (v / 65536)]

/-- The instruction the decoder reads from such a word. -/
def decodeTableWord (nbits w : Nat) : Option Instr :=
  match decode (tableWordBytes nbits w) with
  | .ok (i, _) => some i
  | .error _ => none

end Sys2Proof
end

