-- ==== Sys2Proof/Config.lean ====
section
/-! DEFINITION. The implementation parameters of 00_scope.md R7: the types of their values. The values this spec decides
stand in Machine/Params.lean. The spec leaves no value free, so there is no opaque constant here. -/

namespace Sys2Proof.Config

/-- MEM_SIZE (R7, R35): the full 64 KiB, or the parity mode that has no byte at 0xFFFF. -/
inductive MemSize where
  | full
  | parity
  deriving DecidableEq, Repr

/-- The parameters of R7. A machine keeps the ones it was constructed with. -/
structure Params where
  /-- MEM_SIZE (92_eei_decisions.md D1) -/
  memSize : MemSize
  /-- RESET_ZERO_Y (D3) -/
  resetZeroY : Bool
  /-- RESET_ZERO_CV (D4) -/
  resetZeroCV : Bool
  /-- ZP_PTR_WRAP (D7) -/
  zpPtrWrap : Bool
  /-- LOAD_BASE (R157) -/
  loadBase : Addr
  deriving DecidableEq, Repr

end Sys2Proof.Config
end

