-- ==== Sys2Proof/Machine/Params.lean ====
section
/-! DEFINITION. The values of the implementation parameters (00_scope.md R7), and how many bytes each MEM_SIZE has (R35). -/

namespace Sys2Proof.Config

/-- The number of bytes, at addresses 0 to `bytes - 1` (R35). -/
def MemSize.bytes : MemSize → Nat
  | .full => 65536
  | .parity => 65535

/-- The values this spec decides (the table of R7). -/
def specParams : Params where
  memSize := .full
  resetZeroY := true
  resetZeroCV := true
  zpPtrWrap := true
  loadBase := 0x8000#16

/-- Parity mode: the reference's memory with no byte at 0xFFFF, everything else as the spec decides (R14, R35). -/
def parityParams : Params := { specParams with memSize := .parity }

end Sys2Proof.Config
end

