-- ==== Sys2Proof/Machine/State.lean ====
section
/-! DEFINITION. The machine's state (10_state.md), the fault record (60_exceptions.md R132), the ways a step can stop, and
the state right after reset (70_reset_and_hazards.md R152). State is plain data. -/

namespace Sys2Proof.Machine

/-- The fault record (R28, R132): one constructor per fault kind, with the fields the table of R132 gives it. -/
inductive FaultRecord where
  /-- the fetched byte has no descriptor (R133) -/
  | decodeError (opcodeByte : Byte) (opcodeAddress : Addr)
  /-- the resolver was called with NoneAddressing (R135) -/
  | invalidAddressingMode (mnemonic : Mnemonic) (opcodeByte : Byte) (opcodeAddress : Addr)
  /-- an access to an address that holds no byte (R136); the opcode byte is there when it had been fetched -/
  | memoryFault (accessed : Addr) (opcodeByte : Option Byte) (opcodeAddress : Addr)
  deriving DecidableEq, Repr

/-- The run state (R27). `faulted` carries the fault record, which is empty in every other run state (R28). -/
inductive RunState where
  | stopped
  | running
  | halted
  | faulted (record : FaultRecord)
  deriving DecidableEq, Repr

/-- Memory: the bytes that are not 0x00, each with its address, addresses strictly rising (`Memory.wf` in Machine/Ops.lean).
An address that is not listed reads 0x00 (R36). -/
abbrev Memory := List Host.Cell

/-- Everything the spec gives the machine (R15, R27, R28, R33, R35), and the parameters it was constructed with (R7). -/
structure State where
  /-- the accumulator (R16) -/
  a : Byte
  /-- index register X (R17) -/
  x : Byte
  /-- index register Y (R18) -/
  y : Byte
  /-- the program counter (R21): between steps, the address of the next opcode byte -/
  pc : Addr
  /-- the status byte (R22): C is bit 0, Z bit 1, V bit 6, N bit 7 -/
  p : Byte
  /-- the memory (R35, R36) -/
  mem : Memory
  /-- the run state and, in it, the fault record (R27, R28) -/
  runState : RunState
  /-- the implementation parameters (R7), which no step changes; the model's own field (notes/assumptions/1.md) -/
  params : Config.Params
  deriving DecidableEq, Repr

/-- Why a step has no next state. The spec's own faults are no such stop: they are next states whose run state is
`faulted` (R12, R134; notes/assumptions/3.md). -/
inductive Fault where
  /-- Raised by `step` alone, in a state whose run state is not Running: "In Stopped, Halted and Faulted the core has no
  step and issues no memory access" (R81). Safe: the model stops where the core does nothing (notes/assumptions/2.md). -/
  | noStep (runState : RunState)
  deriving DecidableEq, Repr

/-- Why an instruction has no meaning in the model. -/
inductive Refusal where
  /-- Raised by an arm of `exec` whose instruction has no meaning yet. No arm does. Safe: nothing is claimed of it. -/
  | notModelled (mnemonic : String)
  deriving DecidableEq, Repr

/-- What ends a step before its effect is complete: `raise` of R12, before the record is filled in. -/
inductive Cause where
  /-- an access to an address that holds no byte (R37, R38) -/
  | memoryFault (accessed : Addr)
  /-- NoneAddressing resolved as if it gave an address (R68) -/
  | invalidAddressingMode
  deriving DecidableEq, Repr

/-- The machine right after reset (R152), from the power-on state of R31, in which no byte of memory has been written:
the reset vector at 0xFFFC/0xFFFD reads 0x0000 (R154). -/
def State.reset : State where
  a := 0x00#8
  x := 0x00#8
  y := 0x00#8
  pc := 0x0000#16
  p := 0x00#8
  mem := []
  runState := .stopped
  params := Config.specParams

end Sys2Proof.Machine
end

