-- ==== Sys2Proof/Machine/Ops.lean ====
section
/-! DEFINITION. The named operations over memory (20_memory.md), registers, program counter and run state, and the two ways
a step ends: complete (40_engine.md R87) or with a fault taken (60_exceptions.md R134). -/

namespace Sys2Proof.Machine

/-! ## Memory as data -/

/-- The byte listed at an address, 0x00 where none is (R36). -/
def Memory.read : Memory → Nat → Byte
  | [], _ => 0x00#8
  | (k, v) :: t, a => if k = a then v else Memory.read t a

/-- The memory with nothing listed at an address. -/
def Memory.remove : Memory → Nat → Memory
  | [], _ => []
  | (k, v) :: t, a => if k = a then Memory.remove t a else (k, v) :: Memory.remove t a

/-- The memory with one cell put in at its place in the order. -/
def Memory.insert : Memory → Nat → Byte → Memory
  | [], a, v => [(a, v)]
  | (k, w) :: t, a, v => if a < k then (a, v) :: (k, w) :: t else (k, w) :: Memory.insert t a v

/-- The memory with a byte stored (R38). Storing 0x00, which an unlisted address reads, removes the cell. -/
def Memory.write (m : Memory) (a : Nat) (v : Byte) : Memory :=
  if v = 0x00#8 then m.remove a else (m.remove a).insert a v

/-- Bytes stored at consecutive addresses from `a` on. -/
def Memory.writeBytes : Memory → Nat → List Byte → Memory
  | m, _, [] => m
  | m, a, b :: t => Memory.writeBytes (m.write a b) (a + 1) t

/-- Addresses strictly rising from `lo` on, and no cell that holds 0x00. -/
def Memory.wfFrom : Nat → Memory → Bool
  | _, [] => true
  | lo, (k, v) :: t => lo ≤ k && v != 0x00#8 && Memory.wfFrom (k + 1) t

/-- The canonical form of a memory: two memories in it that read alike are equal. -/
def Memory.wf (m : Memory) : Bool := Memory.wfFrom 0 m

/-- Every listed address lies below `n`. -/
def Memory.within (n : Nat) (m : Memory) : Bool := m.all (fun c => c.1 < n)

/-! ## Registers, program counter, run state -/

def State.setA (s : State) (v : Byte) : State := { s with a := v }
def State.setX (s : State) (v : Byte) : State := { s with x := v }
def State.setPc (s : State) (w : Addr) : State := { s with pc := w }
def State.setP (s : State) (v : Byte) : State := { s with p := v }
def State.setMem (s : State) (m : Memory) : State := { s with mem := m }
def State.setRunState (s : State) (r : RunState) : State := { s with runState := r }

/-- `PC <- (PC + n) mod 65536` (R21, R83, R87). -/
def State.advancePc (s : State) (n : Nat) : State := s.setPc (s.pc + BitVec.ofNat 16 n)

/-- `halt` (R12, R86): the run state becomes Halted. -/
def State.halt (s : State) : State := s.setRunState .halted

/-- The fault record of R28: empty unless the run state is Faulted. -/
def State.faultRecord (s : State) : Option FaultRecord :=
  match s.runState with
  | .faulted r => some r
  | .stopped | .running | .halted => none

/-! ## Memory as the core reaches it -/

/-- The address holds a byte (R35): all do, but 0xFFFF in parity mode. -/
def State.hasByte (s : State) (a : Addr) : Bool := a.toNat < s.params.memSize.bytes

/-- `MemRead(addr, 1)` (R37). -/
def State.memRead (s : State) (a : Addr) : Except Cause Byte :=
  if s.hasByte a then .ok (s.mem.read a.toNat) else .error (.memoryFault a)

/-- `MemWrite(addr, 1, v)` (R38). -/
def State.memWrite (s : State) (a : Addr) (v : Byte) : Except Cause State :=
  if s.hasByte a then .ok (s.setMem (s.mem.write a.toNat v)) else .error (.memoryFault a)

/-- `Read16(addr)` (R39): the low byte at addr is read first, then the high byte at (addr + 1) mod 65536. -/
def State.read16 (s : State) (a : Addr) : Except Cause Addr :=
  match s.memRead a with
  | .error c => .error c
  | .ok lo =>
    match s.memRead (a + 1#16) with
    | .error c => .error c
    | .ok hi => .ok (hiLo hi lo)

/-- `Write16(addr, v)` (R40): the low byte first. No instruction uses it. -/
def State.write16 (s : State) (a : Addr) (v : Addr) : Except Cause State :=
  match s.memWrite a (loByte v) with
  | .error c => .error c
  | .ok t => t.memWrite (a + 1#16) (hiByte v)

/-- `n` consecutive bytes, lowest address first (R51), each address taken mod 65536 (R53). -/
def State.readBytes (s : State) : Addr → Nat → Except Cause (List Byte)
  | _, 0 => .ok []
  | a, n + 1 =>
    match s.memRead a with
    | .error c => .error c
    | .ok b =>
      match State.readBytes s (a + 1#16) n with
      | .error c => .error c
      | .ok bs => .ok (b :: bs)

/-! ## How a step ends -/

/-- The fault record of R132 for a cause met while an instruction with this mnemonic and opcode byte, fetched at
`opcodeAddress`, was being carried out. -/
def Cause.record (c : Cause) (m : Mnemonic) (opcodeByte : Byte) (opcodeAddress : Addr) : FaultRecord :=
  match c with
  | .memoryFault a => .memoryFault a (some opcodeByte) opcodeAddress
  | .invalidAddressingMode => .invalidAddressingMode m opcodeByte opcodeAddress

/-- The numeric code of a fault's kind (the table of R132, decision D8). -/
def FaultRecord.code : FaultRecord → Nat
  | .decodeError _ _ => 1
  | .invalidAddressingMode _ _ _ => 2
  | .memoryFault _ _ _ => 3

/-- TAKING A FAULT (R12, R131, R134, R141): from the state before the step, the run state becomes Faulted with the record,
and every register, flag, memory byte and PC keep their values. There is no handler to go to and no return (R142). -/
def State.raise (s : State) (r : FaultRecord) : State := s.setRunState (.faulted r)

/-- The end of a step of instruction `i` from state `s` (R82, R87, R134): what `Execute` gave, with PC advanced to the
address just past the instruction, or the fault it raised taken in `s` itself. -/
def retire (i : Instr) (s : State) (effect : Except Cause State) : Host.Outcome State Fault Refusal :=
  match effect with
  | .ok t => .next (t.advancePc i.length)
  | .error c => .next (s.raise (c.record i.mnemonic i.opcode s.pc))

end Sys2Proof.Machine
end

