-- ==== Sys2Proof/Machine/Flags.lean ====
section
/-! DEFINITION. The status register's four flags (10_state.md R22) and every flag computation of the spec: `UpdateZN`
(40_engine.md R91), carry (43_arithmetic.md R117) and signed overflow (R118). -/

namespace Sys2Proof.Machine

/-- The four flags (R22). Bits 2 to 5 of P have no function. -/
inductive Flag where
  | c | z | v | n
  deriving DecidableEq, Repr

/-- The flag's bit of P, as a mask (the table of R22). -/
def Flag.mask : Flag → Byte
  | .c => 0x01#8
  | .z => 0x02#8
  | .v => 0x40#8
  | .n => 0x80#8

/-- `P.f` (R10). -/
def State.flag (s : State) (f : Flag) : Bool := s.p &&& f.mask != 0x00#8

/-- `P.f <- b` on a status byte (R10). -/
def withFlag (p : Byte) (f : Flag) (b : Bool) : Byte := if b then p ||| f.mask else p &&& ~~~f.mask

/-- `P.f <- b` (R10): every other bit of P is kept. -/
def State.setFlag (s : State) (f : Flag) (b : Bool) : State := s.setP (withFlag s.p f b)

/-- `UpdateZN(v)` (R91). -/
def State.updateZN (s : State) (v : Byte) : State := (s.setFlag .z (v == 0x00#8)).setFlag .n v.msb

/-- The exact sum of ADC (R116): A + m + c, 0 to 511. -/
def adcSum (a m : Byte) (c : Bool) : Nat := a.toNat + m.toNat + c.toNat

/-- `r <- sum mod 256` (R116). -/
def adcResult (a m : Byte) (c : Bool) : Byte := BitVec.ofNat 8 (adcSum a m c)

/-- Carry out (R117): the exact sum exceeds 255. -/
def adcCarry (a m : Byte) (c : Bool) : Bool := 255 < adcSum a m c

/-- Overflow (R118): ((A xor r) and (m xor r))[7]. -/
def adcOverflow (a m : Byte) (c : Bool) : Bool := ((a ^^^ adcResult a m c) &&& (m ^^^ adcResult a m c)).msb

end Sys2Proof.Machine
end

