-- ==== Sys2Proof/Machine/Operands.lean ====
section
/-! DEFINITION. The addressing-mode resolver (30_encoding.md R58 to R68), all ten modes, and the operand byte that LDA and
ADC read. -/

namespace Sys2Proof.Machine

/-- The address of a zero-page pointer's high byte (R66, R67): (p + 1) mod 256 with ZP_PTR_WRAP, else p + 1 as 16 bits. -/
def State.pointerHighAddress (s : State) (p : Byte) : Addr :=
  if s.params.zpPtrWrap then zext16 (p + 1#8) else zext16 p + 1#16

/-- The little-endian pointer at zero-page address `p` (R66, R67): low byte read first (R51). -/
def State.readPointer (s : State) (p : Byte) : Except Cause Addr :=
  match s.memRead (zext16 p) with
  | .error c => .error c
  | .ok lo =>
    match s.memRead (s.pointerHighAddress p) with
    | .error c => .error c
    | .ok hi => .ok (hiLo hi lo)

/-- The effective address of a decoded operand whose first operand byte stands at `operandAddress` (R59 to R68). -/
def State.effectiveAddressAt (s : State) (operandAddress : Addr) : Operand → Except Cause Addr
  | .immediate _ => .ok operandAddress
  | .zeroPage b => .ok (zext16 b)
  | .zeroPageX b => .ok (zext16 (b + s.x))
  | .zeroPageY b => .ok (zext16 (b + s.y))
  | .absolute w => .ok w
  | .absoluteX w => .ok (w + zext16 s.x)
  | .absoluteY w => .ok (w + zext16 s.y)
  | .indirectX b => s.readPointer (b + s.x)
  | .indirectY b =>
    match s.readPointer b with
    | .error c => .error c
    | .ok base => .ok (base + zext16 s.y)
  | .noneAddressing => .error .invalidAddressingMode

/-- The effective address as the engine has it (R85): PC is the opcode address, the operand follows it. -/
def State.effectiveAddress (s : State) (o : Operand) : Except Cause Addr := s.effectiveAddressAt (s.pc + 1#16) o

/-- `Resolve(mode, PC, X, Y, mem)` (R58): the operand bytes are read at `pc`, PC itself and memory are not changed. -/
def State.resolve (s : State) (mode : Mode) (pc : Addr) : Except Cause Addr :=
  let onByte (f : Byte → Operand) : Except Cause Addr :=
    match s.memRead pc with
    | .error c => .error c
    | .ok b => s.effectiveAddressAt pc (f b)
  let onWord (f : Addr → Operand) : Except Cause Addr :=
    match s.read16 pc with
    | .error c => .error c
    | .ok w => s.effectiveAddressAt pc (f w)
  match mode with
  | .immediate => .ok pc
  | .zeroPage => onByte .zeroPage
  | .zeroPageX => onByte .zeroPageX
  | .zeroPageY => onByte .zeroPageY
  | .absolute => onWord .absolute
  | .absoluteX => onWord .absoluteX
  | .absoluteY => onWord .absoluteY
  | .indirectX => onByte .indirectX
  | .indirectY => onByte .indirectY
  | .noneAddressing => .error .invalidAddressingMode

/-- `m <- MemRead(EA, 1)` for a decoded operand (R94, R116). In Immediate mode the byte at the effective address is the
operand byte itself, which decoding has read already: R51 has no second read of it (notes/assumptions/5.md). -/
def State.operandByte (s : State) : Operand → Except Cause Byte
  | .immediate v => .ok v
  | o =>
    match s.effectiveAddress o with
    | .error c => .error c
    | .ok ea => s.memRead ea

end Sys2Proof.Machine
end

