-- ==== Sys2Proof/Machine/Arithmetic.lean ====
section
/-! DEFINITION. ADC (43_arithmetic.md R116 to R128), one definition per form. -/

namespace Sys2Proof.Machine

/-- The ADC core of R116 on operand byte `m`: C, V, then A, then Z and N from the new A. -/
def State.addWithCarry (s : State) (m : Byte) : State :=
  let c := s.flag .c
  let r := adcResult s.a m c
  (((s.setFlag .c (adcCarry s.a m c)).setFlag .v (adcOverflow s.a m c)).setA r).updateZN r

/-- ADC, all forms (R116). -/
def addToAccumulator (i : Instr) (s : State) : Host.Outcome State Fault Refusal :=
  retire i s (match s.operandByte i.operand with
    | .error c => .error c
    | .ok m => .ok (s.addWithCarry m))

/-- R121 -/
def execAdcImmediate (value : Byte) (s : State) := addToAccumulator (.adcImmediate value) s
/-- R122 -/
def execAdcZeroPage (zp : Byte) (s : State) := addToAccumulator (.adcZeroPage zp) s
/-- R123 -/
def execAdcZeroPageX (zp : Byte) (s : State) := addToAccumulator (.adcZeroPageX zp) s
/-- R124 -/
def execAdcAbsolute (base : Addr) (s : State) := addToAccumulator (.adcAbsolute base) s
/-- R125 -/
def execAdcAbsoluteX (base : Addr) (s : State) := addToAccumulator (.adcAbsoluteX base) s
/-- R126 -/
def execAdcAbsoluteY (base : Addr) (s : State) := addToAccumulator (.adcAbsoluteY base) s
/-- R127 -/
def execAdcIndirectX (zp : Byte) (s : State) := addToAccumulator (.adcIndirectX zp) s
/-- R128 -/
def execAdcIndirectY (zp : Byte) (s : State) := addToAccumulator (.adcIndirectY zp) s

end Sys2Proof.Machine
end

