-- ==== Sys2Proof/Machine/Halt.lean ====
section
/-! DEFINITION. BRK (44_halt.md R129, R130). -/

namespace Sys2Proof.Machine

/-- BRK (R129): `halt`; PC ends just past the one byte, nothing else changes. It is no interrupt (R130). -/
def execBrk (s : State) : Host.Outcome State Fault Refusal := retire .brk s (.ok s.halt)

end Sys2Proof.Machine
end

