-- ==== Sys2Proof/Machine/LoadStore.lean ====
section
/-! DEFINITION. LDA (41_load_store.md R94 to R102) and STA (R103 to R110), one definition per form. -/

namespace Sys2Proof.Machine

/-- LDA, all forms (R94): A <- m, then UpdateZN(A). -/
def loadAccumulator (i : Instr) (s : State) : Host.Outcome State Fault Refusal :=
  retire i s (match s.operandByte i.operand with
    | .error c => .error c
    | .ok m => .ok ((s.setA m).updateZN m))

/-- STA, all forms (R103): MemWrite(EA, 1, A); no flag. -/
def storeAccumulator (i : Instr) (s : State) : Host.Outcome State Fault Refusal :=
  retire i s (match s.effectiveAddress i.operand with
    | .error c => .error c
    | .ok ea => s.memWrite ea s.a)

/-- R95 -/
def execLdaImmediate (value : Byte) (s : State) := loadAccumulator (.ldaImmediate value) s
/-- R96 -/
def execLdaZeroPage (zp : Byte) (s : State) := loadAccumulator (.ldaZeroPage zp) s
/-- R97 -/
def execLdaZeroPageX (zp : Byte) (s : State) := loadAccumulator (.ldaZeroPageX zp) s
/-- R98 -/
def execLdaAbsolute (base : Addr) (s : State) := loadAccumulator (.ldaAbsolute base) s
/-- R99 -/
def execLdaAbsoluteX (base : Addr) (s : State) := loadAccumulator (.ldaAbsoluteX base) s
/-- R100 -/
def execLdaAbsoluteY (base : Addr) (s : State) := loadAccumulator (.ldaAbsoluteY base) s
/-- R101 -/
def execLdaIndirectX (zp : Byte) (s : State) := loadAccumulator (.ldaIndirectX zp) s
/-- R102 -/
def execLdaIndirectY (zp : Byte) (s : State) := loadAccumulator (.ldaIndirectY zp) s

/-- R104 -/
def execStaZeroPage (zp : Byte) (s : State) := storeAccumulator (.staZeroPage zp) s
/-- R105 -/
def execStaZeroPageX (zp : Byte) (s : State) := storeAccumulator (.staZeroPageX zp) s
/-- R106 -/
def execStaAbsolute (base : Addr) (s : State) := storeAccumulator (.staAbsolute base) s
/-- R107 -/
def execStaAbsoluteX (base : Addr) (s : State) := storeAccumulator (.staAbsoluteX base) s
/-- R108 -/
def execStaAbsoluteY (base : Addr) (s : State) := storeAccumulator (.staAbsoluteY base) s
/-- R109 -/
def execStaIndirectX (zp : Byte) (s : State) := storeAccumulator (.staIndirectX zp) s
/-- R110 -/
def execStaIndirectY (zp : Byte) (s : State) := storeAccumulator (.staIndirectY zp) s

end Sys2Proof.Machine
end

