-- ==== Sys2Proof/Machine/Register.lean ====
section
/-! DEFINITION. TAX (42_register.md R112) and INX (R113). -/

namespace Sys2Proof.Machine

/-- X <- v, then UpdateZN(X): what TAX and INX share. -/
def State.writeX (s : State) (v : Byte) : State := (s.setX v).updateZN v

/-- TAX (R112): X <- A. -/
def execTax (s : State) : Host.Outcome State Fault Refusal := retire .tax s (.ok (s.writeX s.a))

/-- INX (R113): X <- (X + 1) mod 256. -/
def execInx (s : State) : Host.Outcome State Fault Refusal := retire .inx s (.ok (s.writeX (s.x + 1#8)))

end Sys2Proof.Machine
end

