-- ==== Sys2Proof/Machine/Dispatch.lean ====
section
/-! DEFINITION. The dispatch: one arm per instruction form (30_encoding.md R74, 40_engine.md R93). -/

namespace Sys2Proof.Machine

/-- One instruction, from the state whose PC is its opcode address to the state at the end of its step (40_engine.md R82).
The run state is `step`'s to check (R81). -/
def exec (i : Instr) (s : State) : Host.Outcome State Fault Refusal :=
  match i with
  | .brk => Sys2Proof.Machine.execBrk s
  | .adcIndirectX zp => Sys2Proof.Machine.execAdcIndirectX zp s
  | .adcZeroPage zp => Sys2Proof.Machine.execAdcZeroPage zp s
  | .adcImmediate value => Sys2Proof.Machine.execAdcImmediate value s
  | .adcAbsolute base => Sys2Proof.Machine.execAdcAbsolute base s
  | .adcIndirectY zp => Sys2Proof.Machine.execAdcIndirectY zp s
  | .adcZeroPageX zp => Sys2Proof.Machine.execAdcZeroPageX zp s
  | .adcAbsoluteY base => Sys2Proof.Machine.execAdcAbsoluteY base s
  | .adcAbsoluteX base => Sys2Proof.Machine.execAdcAbsoluteX base s
  | .staIndirectX zp => Sys2Proof.Machine.execStaIndirectX zp s
  | .staZeroPage zp => Sys2Proof.Machine.execStaZeroPage zp s
  | .staAbsolute base => Sys2Proof.Machine.execStaAbsolute base s
  | .staIndirectY zp => Sys2Proof.Machine.execStaIndirectY zp s
  | .staZeroPageX zp => Sys2Proof.Machine.execStaZeroPageX zp s
  | .staAbsoluteY base => Sys2Proof.Machine.execStaAbsoluteY base s
  | .staAbsoluteX base => Sys2Proof.Machine.execStaAbsoluteX base s
  | .ldaIndirectX zp => Sys2Proof.Machine.execLdaIndirectX zp s
  | .ldaZeroPage zp => Sys2Proof.Machine.execLdaZeroPage zp s
  | .ldaImmediate value => Sys2Proof.Machine.execLdaImmediate value s
  | .tax => Sys2Proof.Machine.execTax s
  | .ldaAbsolute base => Sys2Proof.Machine.execLdaAbsolute base s
  | .ldaIndirectY zp => Sys2Proof.Machine.execLdaIndirectY zp s
  | .ldaZeroPageX zp => Sys2Proof.Machine.execLdaZeroPageX zp s
  | .ldaAbsoluteY base => Sys2Proof.Machine.execLdaAbsoluteY base s
  | .ldaAbsoluteX base => Sys2Proof.Machine.execLdaAbsoluteX base s
  | .inx => Sys2Proof.Machine.execInx s

end Sys2Proof.Machine
end

