-- ==== Sys2Proof/Machine/Fetch.lean ====
section
/-! DEFINITION. The opcode fetch, the lookup and the reading of the operand bytes (40_engine.md R82 to R85), and the placing
of an instruction where the next fetch finds it. -/

namespace Sys2Proof.Machine

/-- The instruction at PC, or the record of the fault met while fetching it. The opcode byte is read first, then looked
up, then the operand bytes are read, lowest address first (R51, R138). -/
def State.fetch (s : State) : Except FaultRecord Instr :=
  match s.memRead s.pc with
  | .error _ => .error (.memoryFault s.pc none s.pc)
  | .ok op =>
    match lookup op with
    | none => .error (.decodeError op s.pc)
    | some d =>
      match s.readBytes (s.pc + 1#16) (d.length - 1) with
      | .error c => .error (c.record d.mnemonic op s.pc)
      | .ok bs =>
        match decode (op :: bs) with
        | .ok (i, _) => .ok i
        | .error (.noForm m _) => .error (.invalidAddressingMode m op s.pc)
        | .error _ => .error (.decodeError op s.pc)

/-- The memory with bytes stored from address `a` on, addresses taken mod 65536, an address that holds no byte skipped. -/
def State.storeBytes (s : State) : Addr → List Byte → State
  | _, [] => s
  | a, b :: t =>
    match s.memWrite a b with
    | .error _ => State.storeBytes s (a + 1#16) t
    | .ok s' => State.storeBytes s' (a + 1#16) t

/-- The bytes stored at PC, and the run state Running, in which alone a step is defined (R81). -/
def State.placeInstruction (s : State) (bs : List Byte) : State := (s.storeBytes s.pc bs).setRunState .running

end Sys2Proof.Machine
end

