-- ==== Sys2Proof/Machine/Step.lean ====
section
/-! DEFINITION. One step of the engine (40_engine.md R80 to R93). -/

namespace Sys2Proof.Machine

/-- One step (R82). In Running: fetch and decode, then the instruction; a fault while fetching is taken in the state before
the step (R134). In any other run state there is no step (R81). -/
def step (s : State) : Host.Outcome State Fault Refusal :=
  match s.runState with
  | .running =>
    match s.fetch with
    | .ok i => exec i s
    | .error r => .next (s.raise r)
  | .stopped => .fault (.noStep s.runState)
  | .halted => .fault (.noStep s.runState)
  | .faulted _ => .fault (.noStep s.runState)

/-- The state with one instruction placed where `step` fetches, running: what the host's load and run bring about
(notes/assumptions/4.md). -/
def State.withFetchWord (s : State) (nbits w : Nat) : State := s.placeInstruction (tableWordBytes nbits w)

end Sys2Proof.Machine
end

