-- ==== Sys2Proof/Machine/Accesses.lean ====
section
/-! DEFINITION. The memory interface of one step: the accesses it issues, in order (20_memory.md R51, 92_eei_decisions.md
D10, D13). The step itself does not read this list; statements tie the two together. -/

namespace Sys2Proof.Machine

/-- One byte access. -/
inductive Access where
  | read (a : Addr)
  | write (a : Addr)
  deriving DecidableEq, Repr

def Access.addr : Access → Addr
  | .read a | .write a => a

/-- The operand reads of a mode, lowest address first. In Immediate mode the data read is the operand's (R51). -/
def operandReads (pc : Addr) : Mode → List Access
  | .noneAddressing | .immediate => []
  | .zeroPage | .zeroPageX | .zeroPageY | .indirectX | .indirectY => [.read (pc + 1#16)]
  | .absolute | .absoluteX | .absoluteY => [.read (pc + 1#16), .read (pc + 2#16)]

/-- The pointer reads of the indirect modes: low byte, then high byte. -/
def State.pointerReads (s : State) : Operand → List Access
  | .indirectX b => [.read (zext16 (b + s.x)), .read (s.pointerHighAddress (b + s.x))]
  | .indirectY b => [.read (zext16 b), .read (s.pointerHighAddress b)]
  | .immediate _ | .zeroPage _ | .zeroPageX _ | .zeroPageY _ | .absolute _ | .absoluteX _ | .absoluteY _
  | .noneAddressing => []

/-- The data access: one read for LDA and ADC, one write for STA, none for TAX, INX and BRK (R44). -/
def State.dataAccess (s : State) (i : Instr) : List Access :=
  match s.effectiveAddress i.operand with
  | .error _ => []
  | .ok ea =>
    match i.mnemonic with
    | .lda | .adc => [.read ea]
    | .sta => [.write ea]
    | .tax | .inx | .brk => []

/-- The three bytes at PC as memory lists them, whatever of them an instruction uses. -/
def State.bytesAtPc (s : State) : List Byte :=
  [s.mem.read s.pc.toNat, s.mem.read (s.pc + 1#16).toNat, s.mem.read (s.pc + 2#16).toNat]

/-- The accesses a step would issue if every address held a byte: opcode, operand, pointer, data (R51). -/
def State.accessPlan (s : State) : List Access :=
  .read s.pc ::
    match decode s.bytesAtPc with
    | .error _ => []
    | .ok (i, _) => operandReads s.pc i.mode ++ s.pointerReads i.operand ++ s.dataAccess i

/-- The accesses up to and including the first one that holds no byte, which ends the step (R138). -/
def State.upToFault (s : State) : List Access → List Access
  | [] => []
  | x :: t => if s.hasByte x.addr then x :: State.upToFault s t else [x]

/-- The accesses of one step (R51); none unless Running (R81). -/
def State.stepAccesses (s : State) : List Access :=
  match s.runState with
  | .running => s.upToFault s.accessPlan
  | .stopped | .halted | .faulted _ => []

end Sys2Proof.Machine
end

