-- ==== Sys2Proof/Machine/Assembly.lean ====
section
/-! DEFINITION. The assembler text of an instruction (30_encoding.md R78): the mnemonic and at most one operand, numbers in
hexadecimal. Nothing in the machine reads it. -/

namespace Sys2Proof

def hexDigit (n : Nat) : Char :=
  ['0', '1', '2', '3', '4', '5', '6', '7', '8', '9', 'A', 'B', 'C', 'D', 'E', 'F'].getD n '0'

/-- `$hh`, two digits. -/
def hexByte (b : Byte) : List Char := ['$', hexDigit (b.toNat / 16), hexDigit (b.toNat % 16)]

/-- `$hhhh`, four digits, which tell an absolute operand below 0x100 from a zero-page one. -/
def hexWord (w : Addr) : List Char := hexByte (hiByte w) ++ (hexByte (loByte w)).drop 1

def Mnemonic.text : Mnemonic → List Char
  | .lda => ['L', 'D', 'A']
  | .sta => ['S', 'T', 'A']
  | .tax => ['T', 'A', 'X']
  | .inx => ['I', 'N', 'X']
  | .adc => ['A', 'D', 'C']
  | .brk => ['B', 'R', 'K']

/-- The operand column of R78. -/
def Operand.text : Operand → List Char
  | .noneAddressing => []
  | .immediate v => '#' :: hexByte v
  | .zeroPage b => hexByte b
  | .zeroPageX b => hexByte b ++ [',', 'X']
  | .zeroPageY b => hexByte b ++ [',', 'Y']
  | .absolute w => hexWord w
  | .absoluteX w => hexWord w ++ [',', 'X']
  | .absoluteY w => hexWord w ++ [',', 'Y']
  | .indirectX b => '(' :: hexByte b ++ [',', 'X', ')']
  | .indirectY b => '(' :: hexByte b ++ [')', ',', 'Y']

/-- One line of assembler text (R78). -/
def Instr.text (i : Instr) : List Char :=
  match i.operand.text with
  | [] => i.mnemonic.text
  | t => i.mnemonic.text ++ ' ' :: t

end Sys2Proof
end

