-- ==== Sys2Proof/Machine/Control.lean ====
section
/-! DEFINITION. The control surface through which a host drives the core (70_reset_and_hazards.md R149 to R164): construct,
load, reset, run, load_and_run, register inspection, peek and poke. -/

namespace Sys2Proof.Machine.Control

/-- Why a host operation is not performed; the state is then as before. -/
inductive HostError where
  /-- the run state is Running, in which no host operation happens (R149) -/
  | notAccepted
  /-- `LoadBoundsError` (R158) -/
  | loadBoundsError
  /-- an access to an address that holds no byte (R164) -/
  | memoryFault (accessed : Addr)
  deriving DecidableEq, Repr

/-- What register inspection returns (R163). -/
structure Registers where
  a : Byte
  x : Byte
  y : Byte
  p : Byte
  pc : Addr
  deriving DecidableEq, Repr

/-- What running under a budget of steps comes to (R90, R161, R171). -/
inductive RunResult where
  /-- `run` returned: the run state is Halted or Faulted -/
  | ended (s : State)
  /-- the budget was used up while Running: not an end (R90) -/
  | notEnded (s : State)
  /-- a step had no next state while Running, which does not happen -/
  | noStep (s : State)
  deriving DecidableEq, Repr

/-- The address of the reset vector (R46, R154). -/
def resetVector : Addr := 0xFFFC#16

/-- `construct` (R31, R150), with the parameters of R7. -/
def construct (params : Config.Params) : State where
  a := 0x00#8
  x := 0x00#8
  y := 0x00#8
  pc := 0x0000#16
  p := 0x00#8
  mem := []
  runState := .stopped
  params := params

/-- An operation accepted in every run state but Running (R149, R155, R160). -/
def whenNotRunning {α : Type} (s : State) (act : Except HostError α) : Except HostError α :=
  match s.runState with
  | .running => .error .notAccepted
  | .stopped | .halted | .faulted _ => act

/-- A core access in a host operation: the fault is refused to the host (R164). -/
def hostAccess {α : Type} : Except Cause α → Except HostError α
  | .ok v => .ok v
  | .error (.memoryFault a) => .error (.memoryFault a)
  | .error .invalidAddressingMode => .error .notAccepted

/-- `reset` (R151). -/
def reset (s : State) : Except HostError State :=
  whenNotRunning s (match hostAccess (s.read16 resetVector) with
    | .error e => .error e
    | .ok vector => .ok { s with
        a := 0x00#8
        x := 0x00#8
        y := if s.params.resetZeroY then 0x00#8 else s.y
        p := if s.params.resetZeroCV then 0x00#8 else s.p &&& 0x41#8
        pc := vector
        runState := .stopped })

/-- `load(program)` (R156, R158): the copy, then the vector; nothing where the program does not fit. -/
def load (program : List Byte) (s : State) : Except HostError State :=
  whenNotRunning s (
    if s.params.loadBase.toNat + program.length ≤ s.params.memSize.bytes then
      hostAccess ((s.setMem (s.mem.writeBytes s.params.loadBase.toNat program)).write16 resetVector s.params.loadBase)
    else .error .loadBoundsError)

/-- The start of `run` (R161): Running from Stopped and Halted; a fault is sticky (R139). -/
def beginRun (s : State) : Except HostError State :=
  match s.runState with
  | .running => .error .notAccepted
  | .stopped | .halted => .ok (s.setRunState .running)
  | .faulted _ => .ok s

/-- `while run state == Running: step` (R161), at most `budget` steps (R90). -/
def runSteps : Nat → State → RunResult
  | budget, s =>
    match s.runState with
    | .stopped | .halted | .faulted _ => .ended s
    | .running =>
      match budget with
      | 0 => .notEnded s
      | k + 1 =>
        match step s with
        | .next t => runSteps k t
        | .fault _ => .noStep s
        | .refused _ => .noStep s

/-- `run` (R161) under a step budget. -/
def run (budget : Nat) (s : State) : Except HostError RunResult :=
  match beginRun s with
  | .error e => .error e
  | .ok t => .ok (runSteps budget t)

/-- `load_and_run(program)` (R162): if load fails, neither reset nor run is performed. -/
def loadAndRun (budget : Nat) (program : List Byte) (s : State) : Except HostError RunResult :=
  match load program s with
  | .error e => .error e
  | .ok t =>
    match reset t with
    | .error e => .error e
    | .ok u => run budget u

/-- Register inspection (R32, R163). -/
def inspect (s : State) : Except HostError Registers :=
  whenNotRunning s (.ok { a := s.a, x := s.x, y := s.y, p := s.p, pc := s.pc })

/-- Peek, `mem_read(addr)` (R50, R164). -/
def peek (a : Addr) (s : State) : Except HostError Byte := whenNotRunning s (hostAccess (s.memRead a))

/-- Poke, `mem_write(addr, v)` (R50, R164). -/
def poke (a : Addr) (v : Byte) (s : State) : Except HostError State := whenNotRunning s (hostAccess (s.memWrite a v))

end Sys2Proof.Machine.Control
end

