-- ==== Sys2Proof/Safety.lean ====
section
/-! DEFINITION. What holds in every state of a machine driven through its control surface, and what a clean run is. -/

namespace Sys2Proof.Machine

/-- The invariant every step and every host operation keeps: memory in canonical form and within MEM_SIZE (20_memory.md
R35), and status bits 2 to 5 zero (10_state.md R22). -/
abbrev State.Inv (s : State) : Prop :=
  s.mem.wf = true ∧ s.mem.within s.params.memSize.bytes = true ∧ s.p &&& 0x3C#8 = 0x00#8

/-- The states a host can bring a core into (10_state.md R19, 70_reset_and_hazards.md R149): from construction with any
parameters, through load, reset, the start of run, poke, and steps. Inspection and peek change nothing. -/
inductive Reachable : State → Prop where
  | construct (params : Config.Params) : Reachable (Control.construct params)
  | load {s t : State} (program : List Byte) : Reachable s → Control.load program s = .ok t → Reachable t
  | reset {s t : State} : Reachable s → Control.reset s = .ok t → Reachable t
  | beginRun {s t : State} : Reachable s → Control.beginRun s = .ok t → Reachable t
  | poke {s t : State} (a : Addr) (v : Byte) : Reachable s → Control.poke a v s = .ok t → Reachable t
  | step {s t : State} : Reachable s → Sys2Proof.Machine.step s = .next t → Reachable t

/-- The run state is Faulted. -/
def State.isFaulted (s : State) : Bool := s.faultRecord.isSome

/-- No state the core comes to within `n` steps is Faulted. -/
def FaultFree (n : Nat) (s : State) : Prop :=
  ∀ k, k ≤ n → ∀ t, Sys2Proof.core.run k s = .next t → State.isFaulted t = false

end Sys2Proof.Machine
end

