-- ==== Sys2Proof/Certificates/Slice0/Obligations.lean ====
section
/-! DEFINITION. The statements about the model, one `def Obligations.<Name> : Prop` each, and the few words they are said in
(`Sys2Proof.Claims`), written from the spec's rules and not from the model's operations. -/

namespace Sys2Proof.Claims

open Sys2Proof Sys2Proof.Machine

/-- The address holds a byte (20_memory.md R35): any address with the full memory, any but 0xFFFF in parity mode. -/
abbrev present (s : State) (a : Addr) : Prop := s.params.memSize = .full ∨ a ≠ 0xFFFF#16

/-- The status byte after `UpdateZN(v)` (40_engine.md R91): bit 1 and bit 7 rewritten, the six others kept. -/
def znStatus (p v : Byte) : Byte :=
  (p &&& 0x7D#8) ||| (if v = 0x00#8 then 0x02#8 else 0x00#8) ||| (v &&& 0x80#8)

/-- The carry-in of ADC (43_arithmetic.md R116) as a number. -/
def carryIn (p : Byte) : Nat := (p &&& 0x01#8).toNat

/-- The exact unsigned sum (R116, R117). -/
def unsignedSum (p a m : Byte) : Nat := a.toNat + m.toNat + carryIn p

/-- The exact signed sum (R118). -/
def signedSum (p a m : Byte) : Int := s8 a + s8 m + (carryIn p : Int)

/-- The byte ADC leaves in A (R116, R119). -/
def sumByte (p a m : Byte) : Byte := BitVec.ofNat 8 (unsignedSum p a m % 256)

/-- The status byte after ADC (R116 to R119): C when the unsigned sum exceeds 255, V when the signed sum lies outside
-128..127, Z and N from the result, bits 2 to 5 kept. -/
def adcStatus (p a m : Byte) : Byte :=
  (p &&& 0x3C#8)
  ||| (if 255 < unsignedSum p a m then 0x01#8 else 0x00#8)
  ||| (if sumByte p a m = 0x00#8 then 0x02#8 else 0x00#8)
  ||| (if signedSum p a m < -128 ∨ 127 < signedSum p a m then 0x40#8 else 0x00#8)
  ||| (sumByte p a m &&& 0x80#8)

/-- The state after LDA of byte `m` in an instruction of `len` bytes: nothing but A, Z, N and PC changes. -/
def loaded (s : State) (m : Byte) (len : Addr) : State :=
  { s with a := m, p := znStatus s.p m, pc := s.pc + len }

/-- The state after STA at address `ea`: nothing but the one byte of memory and PC changes. -/
def stored (s : State) (ea : Addr) (len : Addr) : State :=
  { s with mem := s.mem.write ea.toNat s.a, pc := s.pc + len }

/-- The state after ADC of byte `m`: nothing but A, P and PC changes. -/
def summed (s : State) (m : Byte) (len : Addr) : State :=
  { s with a := sumByte s.p s.a m, p := adcStatus s.p s.a m, pc := s.pc + len }

/-- The byte memory holds at an address. -/
abbrev byteAt (s : State) (a : Addr) : Byte := s.mem.read a.toNat

/-- The address of a zero-page pointer's high byte (30_encoding.md R66, R67): within page zero with ZP_PTR_WRAP, else the
next address. -/
def highByteAddress (s : State) (p : Byte) : Addr :=
  if s.params.zpPtrWrap then BitVec.ofNat 16 ((p.toNat + 1) % 256) else BitVec.ofNat 16 (p.toNat + 1)

/-- The little-endian word a zero-page pointer names (R66, R67). -/
def pointer (s : State) (p : Byte) : Addr := hiLo (byteAt s (highByteAddress s p)) (byteAt s (zext16 p))

/-- The data access of an instruction at its effective address (20_memory.md R51): a write for STA, a read otherwise. -/
def dataAccessAt (i : Instr) (ea : Addr) : Access := if i.mnemonic = .sta then .write ea else .read ea

/-- The accesses of one step that runs `i` (R51), mode by mode: the opcode byte, the operand bytes lowest address first, a
pointer's low byte and high byte, then the data access. In Immediate mode the operand byte is the data. -/
def orderedAccesses (s : State) (i : Instr) : List Access :=
  match i.operand with
  | .noneAddressing => [.read s.pc]
  | .immediate _ => [.read s.pc, .read (s.pc + 1#16)]
  | .zeroPage b => [.read s.pc, .read (s.pc + 1#16), dataAccessAt i (zext16 b)]
  | .zeroPageX b => [.read s.pc, .read (s.pc + 1#16), dataAccessAt i (zext16 (b + s.x))]
  | .zeroPageY b => [.read s.pc, .read (s.pc + 1#16), dataAccessAt i (zext16 (b + s.y))]
  | .absolute w => [.read s.pc, .read (s.pc + 1#16), .read (s.pc + 2#16), dataAccessAt i w]
  | .absoluteX w => [.read s.pc, .read (s.pc + 1#16), .read (s.pc + 2#16), dataAccessAt i (w + zext16 s.x)]
  | .absoluteY w => [.read s.pc, .read (s.pc + 1#16), .read (s.pc + 2#16), dataAccessAt i (w + zext16 s.y)]
  | .indirectX b =>
    [.read s.pc, .read (s.pc + 1#16), .read (zext16 (b + s.x)), .read (highByteAddress s (b + s.x)),
      dataAccessAt i (pointer s (b + s.x))]
  | .indirectY b =>
    [.read s.pc, .read (s.pc + 1#16), .read (zext16 b), .read (highByteAddress s b),
      dataAccessAt i (pointer s b + zext16 s.y)]

/-- Of a list of accesses, those that are issued: each one up to the first at an address that holds no byte, that one
included, since its fault ends the step (60_exceptions.md R138). -/
def issuedOf (s : State) : List Access → List Access
  | [] => []
  | x :: later => x :: if present s x.addr then issuedOf s later else []

/-- The state Faulted with a record, everything else as it is (60_exceptions.md R134). -/
def faultedWith (s : State) (r : FaultRecord) : State := { s with runState := .faulted r }

/-- The 26 opcode bytes of 30_encoding.md R72. -/
def opcodeBytes : List Byte :=
  [0x00#8, 0x61#8, 0x65#8, 0x69#8, 0x6D#8, 0x71#8, 0x75#8, 0x79#8, 0x7D#8] ++
  [0x81#8, 0x85#8, 0x8D#8, 0x91#8, 0x95#8, 0x99#8, 0x9D#8] ++
  [0xA1#8, 0xA5#8, 0xA9#8, 0xAA#8, 0xAD#8, 0xB1#8, 0xB5#8, 0xB9#8, 0xBD#8, 0xE8#8]

end Sys2Proof.Claims

open Sys2Proof Sys2Proof.Machine Sys2Proof.Claims

/-! ## Reset, the invariant, reachable states -/

/-- 10_state.md R31, 70_reset_and_hazards.md R150: the power-on state, for any parameters. -/
def Obligations.ConstructionZeroesEverything : Prop :=
  ∀ q : Config.Params,
    (Control.construct q).a = 0x00#8 ∧ (Control.construct q).x = 0x00#8 ∧ (Control.construct q).y = 0x00#8 ∧
    (Control.construct q).p = 0x00#8 ∧ (Control.construct q).pc = 0x0000#16 ∧
    (Control.construct q).runState = .stopped ∧ (Control.construct q).faultRecord = none ∧
    ∀ a : Addr, byteAt (Control.construct q) a = 0x00#8

/-- State.reset is what reset makes of a core with the spec's parameters whose memory nothing has written, which is the
model's choice (notes/assumptions/4.md), and every byte of it reads 0x00. -/
def Obligations.ResetStateIsResetOfPowerOn : Prop :=
  Control.reset (Control.construct Config.specParams) = .ok State.reset ∧ ∀ a : Addr, byteAt State.reset a = 0x00#8

/-- 70_reset_and_hazards.md R151 to R153, for every value of the parameters; that Y, C and V are zeroed with the spec's
values is its decision D3, D4, the run state D9. -/
def Obligations.ResetInitialisesRegisters : Prop :=
  ∀ s : State, s.runState ≠ .running →
    Control.reset s = .ok { s with
      a := 0x00#8
      x := 0x00#8
      y := if s.params.resetZeroY then 0x00#8 else s.y
      p := if s.params.resetZeroCV then 0x00#8 else s.p &&& 0x41#8
      pc := hiLo (byteAt s 0xFFFD#16) (byteAt s 0xFFFC#16)
      runState := .stopped }

/-- The invariant holds at reset. That status bits 2 to 5 are zero is the spec's decision D11, that memory lies within MEM_SIZE
its decision D1 (20_memory.md R35); the canonical form of memory is no rule of the spec but the model's choice
(notes/assumptions/14.md). -/
def Obligations.ResetStateMeetsTheInvariant : Prop := State.reset.Inv

/-- Memory stays canonical (the model's choice of a form, notes/assumptions/14.md) and within MEM_SIZE (decision D1) and
status bits 2 to 5 stay zero (decision D11) in every step, from every state in which they are so. -/
def Obligations.EveryStepKeepsTheInvariant : Prop :=
  ∀ s t : State, s.Inv → step s = .next t → t.Inv

/-- 10_state.md R19 (a derivation of the spec's): Y is 0x00 in every state a host can bring the core into, whatever it
loads and pokes, with any parameters; and the invariant holds there, whose canonical form of memory is the model's choice
(notes/assumptions/14.md) and whose zero bits 2 to 5 are decision D11. -/
def Obligations.ReachableStatesHaveYZero : Prop :=
  ∀ s : State, Reachable s → s.y = 0x00#8 ∧ s.Inv

/-! ## Decoding -/

/-- A step runs the decoded instruction (40_engine.md R82): where the bytes at PC begin with the encoding of `i`, each of
them at an address that holds a byte, the step is `exec i`, and nothing is added around it. -/
def Obligations.StepRunsTheDecodedInstruction : Prop :=
  ∀ (s : State) (i : Instr) (rest : List Byte),
    s.runState = .running →
    decode [byteAt s s.pc, byteAt s (s.pc + 1#16), byteAt s (s.pc + 2#16)] = .ok (i, rest) →
    (∀ k : Nat, k < i.length → present s (s.pc + BitVec.ofNat 16 k)) →
    step s = exec i s

/-- Every instruction is well-formed, and decoding its encoding, whatever follows it, gives it back. -/
def Obligations.DecodeOfEncodeIsTheInstruction : Prop :=
  ∀ (i : Instr) (rest : List Byte), i.wf = true ∧ decode (encode i ++ rest) = .ok (i, rest)

/-- Each list of bytes that decodes begins with the encoding of what it decodes to, so no two encodings overlap and no bit
is ignored. -/
def Obligations.EncodeOfDecodeIsTheBytes : Prop :=
  ∀ (bytes : List Byte) (i : Instr) (rest : List Byte),
    decode bytes = .ok (i, rest) → bytes = encode i ++ rest ∧ (encode i).length = i.length

/-- 30_encoding.md R75, 60_exceptions.md R133. The bytes that are opcodes beyond 0xA9, 0xAA, 0xE8 and 0x00 are the spec's
decision D2; that the fault leaves the state before the step is D8. -/
def Obligations.UndecodableBytesFault : Prop :=
  ∀ s : State, s.runState = .running → present s s.pc →
    byteAt s s.pc ∉ opcodeBytes →
    step s = .next (faultedWith s (.decodeError (byteAt s s.pc) s.pc))

/-- Words written out from the encodings of R95, R112, R113, R129 and, by decision D2, R98, R110 and R128. -/
def Obligations.WordsOfTheSpecDecode : Prop :=
  decode [0xA9#8, 0xC0#8, 0xAA#8] = .ok (.ldaImmediate 0xC0#8, [0xAA#8]) ∧
  decode [0xAA#8, 0xE8#8] = .ok (.tax, [0xE8#8]) ∧
  decode [0xE8#8, 0x00#8] = .ok (.inx, [0x00#8]) ∧
  decode [0x00#8] = .ok (.brk, []) ∧
  decode [0xAD#8, 0x34#8, 0x12#8] = .ok (.ldaAbsolute 0x1234#16, []) ∧
  decode [0x91#8, 0xFF#8] = .ok (.staIndirectY 0xFF#8, []) ∧
  decode [0x71#8, 0x40#8] = .ok (.adcIndirectY 0x40#8, []) ∧
  decode [0x89#8, 0x10#8] = .error (.undecodable 0x89#8)

/-- 30_encoding.md R71 and R73 of the table of R72. -/
def Obligations.OpcodeTableIsValid : Prop :=
  opcodeTable.length = 26 ∧ (opcodeTable.map Descriptor.byte).Nodup ∧
  ∀ d ∈ opcodeTable,
    (d.mnemonic ∈ [.lda, .sta, .adc] → d.mode ≠ .noneAddressing ∧ d.mode ≠ .zeroPageY) ∧
    (d.mnemonic ∈ [.tax, .inx, .brk] → d.mode = .noneAddressing) ∧
    d.length = 1 + d.mode.operandBytes

/-! ## The instructions: result, frame and completion -/

/-- 41_load_store.md R94: LDA in all eight forms. The whole next state is given, so this is the frame and the completion
of each form as well. -/
def Obligations.LdaLoadsTheOperandByte : Prop :=
  ∀ s : State,
    (∀ v, exec (.ldaImmediate v) s = .next (loaded s v 2#16)) ∧
    (∀ b, exec (.ldaZeroPage b) s = .next (loaded s (byteAt s (zext16 b)) 2#16)) ∧
    (∀ b, exec (.ldaZeroPageX b) s = .next (loaded s (byteAt s (zext16 (b + s.x))) 2#16)) ∧
    (∀ w, present s w → exec (.ldaAbsolute w) s = .next (loaded s (byteAt s w) 3#16)) ∧
    (∀ w, present s (w + zext16 s.x) →
      exec (.ldaAbsoluteX w) s = .next (loaded s (byteAt s (w + zext16 s.x)) 3#16)) ∧
    (∀ w, present s (w + zext16 s.y) →
      exec (.ldaAbsoluteY w) s = .next (loaded s (byteAt s (w + zext16 s.y)) 3#16)) ∧
    (∀ b, present s (pointer s (b + s.x)) →
      exec (.ldaIndirectX b) s = .next (loaded s (byteAt s (pointer s (b + s.x))) 2#16)) ∧
    (∀ b, present s (pointer s b + zext16 s.y) →
      exec (.ldaIndirectY b) s = .next (loaded s (byteAt s (pointer s b + zext16 s.y)) 2#16))

/-- 41_load_store.md R103: STA in all seven forms; the stored byte is what a later read or fetch gives, and what an LDA of
the same address loads. -/
def Obligations.StaStoresTheAccumulator : Prop :=
  ∀ s : State,
    (∀ b, exec (.staZeroPage b) s = .next (stored s (zext16 b) 2#16)) ∧
    (∀ b, exec (.staZeroPageX b) s = .next (stored s (zext16 (b + s.x)) 2#16)) ∧
    (∀ w, present s w → exec (.staAbsolute w) s = .next (stored s w 3#16)) ∧
    (∀ w, present s (w + zext16 s.x) → exec (.staAbsoluteX w) s = .next (stored s (w + zext16 s.x) 3#16)) ∧
    (∀ w, present s (w + zext16 s.y) → exec (.staAbsoluteY w) s = .next (stored s (w + zext16 s.y) 3#16)) ∧
    (∀ b, present s (pointer s (b + s.x)) →
      exec (.staIndirectX b) s = .next (stored s (pointer s (b + s.x)) 2#16)) ∧
    (∀ b, present s (pointer s b + zext16 s.y) →
      exec (.staIndirectY b) s = .next (stored s (pointer s b + zext16 s.y) 2#16)) ∧
    (∀ ea len, present s ea →
      (stored s ea len).memRead ea = .ok s.a ∧
      exec (.ldaAbsolute ea) (stored s ea len) = .next (loaded (stored s ea len) s.a 3#16))

/-- The frame of STA through the reading of one byte: at the effective address A is read, at every other address what was
read before, and every register but PC is as it was. -/
def Obligations.StaChangesOneByte : Prop :=
  ∀ (i : Instr) (s t : State) (ea : Addr),
    i.mnemonic = .sta → s.effectiveAddress i.operand = .ok ea → present s ea → exec i s = .next t →
    byteAt t ea = s.a ∧ (∀ b : Addr, b ≠ ea → byteAt t b = byteAt s b) ∧
    t.a = s.a ∧ t.x = s.x ∧ t.y = s.y ∧ t.p = s.p ∧ t.runState = s.runState ∧ t.params = s.params

/-- 43_arithmetic.md R116, R117, R119: ADC in all eight forms. V is said as R118 says it of the signed sum. -/
def Obligations.AdcAddsWithCarry : Prop :=
  ∀ s : State,
    (∀ v, exec (.adcImmediate v) s = .next (summed s v 2#16)) ∧
    (∀ b, exec (.adcZeroPage b) s = .next (summed s (byteAt s (zext16 b)) 2#16)) ∧
    (∀ b, exec (.adcZeroPageX b) s = .next (summed s (byteAt s (zext16 (b + s.x))) 2#16)) ∧
    (∀ w, present s w → exec (.adcAbsolute w) s = .next (summed s (byteAt s w) 3#16)) ∧
    (∀ w, present s (w + zext16 s.x) →
      exec (.adcAbsoluteX w) s = .next (summed s (byteAt s (w + zext16 s.x)) 3#16)) ∧
    (∀ w, present s (w + zext16 s.y) →
      exec (.adcAbsoluteY w) s = .next (summed s (byteAt s (w + zext16 s.y)) 3#16)) ∧
    (∀ b, present s (pointer s (b + s.x)) →
      exec (.adcIndirectX b) s = .next (summed s (byteAt s (pointer s (b + s.x))) 2#16)) ∧
    (∀ b, present s (pointer s b + zext16 s.y) →
      exec (.adcIndirectY b) s = .next (summed s (byteAt s (pointer s b + zext16 s.y)) 2#16))

/-- 43_arithmetic.md R118: the three ways the spec writes the overflow condition agree (the spec marks that as derived),
and V after ADC is it. -/
def Obligations.OverflowIsSignedOverflow : Prop :=
  ∀ (s t : State) (m : Byte), exec (.adcImmediate m) s = .next t →
    (t.flag .v = true ↔ signedSum s.p s.a m < -128 ∨ 127 < signedSum s.p s.a m) ∧
    (t.flag .v = true ↔ s.a.msb = m.msb ∧ t.a.msb ≠ s.a.msb) ∧
    (t.flag .v = true ↔ ((s.a ^^^ t.a) &&& (m ^^^ t.a)).msb = true)

/-- 42_register.md R112: TAX, with its encoding, and the step that runs it or meets the parity-mode fetch fault. -/
def Obligations.TaxCopiesAToX : Prop :=
  encode .tax = [0xAA#8] ∧
  ∀ s : State,
    exec .tax s = .next { s with x := s.a, p := znStatus s.p s.a, pc := s.pc + 1#16 } ∧
    (s.runState = .running → present s s.pc → byteAt s s.pc = 0xAA#8 → step s = exec .tax s) ∧
    (s.runState = .running → ¬ present s s.pc → step s = .next (faultedWith s (.memoryFault s.pc none s.pc)))

/-- 42_register.md R113: INX, with its encoding, and the step that runs it or meets the parity-mode fetch fault. -/
def Obligations.InxIncrementsX : Prop :=
  encode .inx = [0xE8#8] ∧
  ∀ s : State,
    exec .inx s = .next { s with
      x := BitVec.ofNat 8 ((s.x.toNat + 1) % 256)
      p := znStatus s.p (BitVec.ofNat 8 ((s.x.toNat + 1) % 256))
      pc := s.pc + 1#16 } ∧
    (s.runState = .running → present s s.pc → byteAt s s.pc = 0xE8#8 → step s = exec .inx s) ∧
    (s.runState = .running → ¬ present s s.pc → step s = .next (faultedWith s (.memoryFault s.pc none s.pc)))

/-- 44_halt.md R129: BRK halts with PC past its one byte and changes nothing else, also where the byte 0x00 was never
written; from the Halted state there is no step and no access, and no other instruction comes to Halted. -/
def Obligations.BrkHalts : Prop :=
  encode .brk = [0x00#8] ∧
  ∀ s : State,
    exec .brk s = .next { s with pc := s.pc + 1#16, runState := .halted } ∧
    (s.runState = .running → present s s.pc → byteAt s s.pc = 0x00#8 →
      step s = .next { s with pc := s.pc + 1#16, runState := .halted }) ∧
    (s.runState = .running → ¬ present s s.pc → step s = .next (faultedWith s (.memoryFault s.pc none s.pc))) ∧
    (s.runState = .halted → (∀ t, step s ≠ .next t) ∧ s.stepAccesses = []) ∧
    (s.runState = .running → ∀ (i : Instr) (t : State), exec i s = .next t → t.runState = .halted → i = .brk)

/-- Two ADC steps with an LDA between them add 16-bit numbers: LDA keeps the carry (R94), ADC takes and leaves it
(R116, R117). -/
def Obligations.CarryJoinsTwoByteSums : Prop :=
  ∀ (s s1 s2 s3 : State) (u v : Addr),
    s.a = loByte u → s.flag .c = false →
    exec (.adcImmediate (loByte v)) s = .next s1 →
    exec (.ldaImmediate (hiByte u)) s1 = .next s2 →
    exec (.adcImmediate (hiByte v)) s2 = .next s3 →
    hiLo s3.a s1.a = u + v ∧ (s3.flag .c = true ↔ 65536 ≤ u.toNat + v.toNat)

/-! ## Rules over all instructions -/

/-- 10_state.md R29: a flag an instruction's rule does not name is left unchanged. -/
def Obligations.UnnamedFlagsAreKept : Prop :=
  ∀ (i : Instr) (s t : State), exec i s = .next t →
    (i.mnemonic = .sta ∨ i.mnemonic = .brk → t.p = s.p) ∧
    (i.mnemonic = .lda ∨ i.mnemonic = .tax ∨ i.mnemonic = .inx → t.p &&& 0x7D#8 = s.p &&& 0x7D#8) ∧
    (i.mnemonic = .adc → t.p &&& 0x3C#8 = s.p &&& 0x3C#8)

/-- 42_register.md R115: no instruction writes Y. -/
def Obligations.NoInstructionWritesY : Prop :=
  (∀ (i : Instr) (s t : State), exec i s = .next t → t.y = s.y) ∧
  (∀ s t : State, step s = .next t → t.y = s.y)

/-- Who writes what (10_state.md R16, R17, 20_memory.md R44): A by LDA and ADC only, X by TAX and INX only, memory by STA
only, read byte by byte; the parameters by nothing (notes/assumptions/1.md). -/
def Obligations.OnlyTheNamedWritersWrite : Prop :=
  ∀ (i : Instr) (s t : State), exec i s = .next t →
    (i.mnemonic ≠ .lda → i.mnemonic ≠ .adc → t.a = s.a) ∧
    (i.mnemonic ≠ .tax → i.mnemonic ≠ .inx → t.x = s.x) ∧
    (i.mnemonic ≠ .sta → ∀ a : Addr, byteAt t a = byteAt s a) ∧
    t.params = s.params

/-- 40_engine.md R89: strictly sequential control flow, left only by BRK and by a fault. -/
def Obligations.ControlFlowIsSequential : Prop :=
  ∀ s t : State, step s = .next t →
    (∃ i : Instr, s.fetch = .ok i ∧ t.pc = BitVec.ofNat 16 ((s.pc.toNat + i.length) % 65536) ∧
      (i ≠ .brk ∧ t.runState = .running ∨ i = .brk ∧ t.runState = .halted)) ∨
    (∃ r : FaultRecord, t = faultedWith s r)

/-- 40_engine.md R81: in Running there is always a step, in the other run states there is none and no memory access. -/
def Obligations.StepIsDefinedExactlyInRunning : Prop :=
  ∀ s : State,
    (s.runState = .running → ∃ t, step s = .next t) ∧
    (s.runState ≠ .running → (∀ t, step s ≠ .next t) ∧ s.stepAccesses = [])

/-- How the model says that there is no step: a named stop that carries the run state (the model's choice,
notes/assumptions/2.md). -/
def Obligations.NoStepIsANamedStop : Prop :=
  ∀ s : State, s.runState ≠ .running → step s = .fault (.noStep s.runState)

/-- 60_exceptions.md R134: a step that faults changes the run state and its record, nothing else. -/
def Obligations.FaultsCommitNothing : Prop :=
  ∀ (s t : State) (r : FaultRecord), step s = .next t → t.runState = .faulted r →
    t = { s with runState := .faulted r } ∧ t.faultRecord = some r

/-- With MEM_SIZE = 65536 (decision D1) no step meets a memory fault (60_exceptions.md R136). -/
def Obligations.FullMemoryHasNoMemoryFault : Prop :=
  ∀ (s t : State), s.params.memSize = .full → step s = .next t →
    ∀ a ob oa, t.runState ≠ .faulted (.memoryFault a ob oa)

/-- The data access that misses memory faults with its address, the opcode byte and the opcode address (60_exceptions.md
R132, R136, decision D1): the other half of the three statements on LDA, STA and ADC. -/
def Obligations.MissingDataByteFaults : Prop :=
  ∀ (i : Instr) (s : State) (ea : Addr),
    i.mnemonic ∈ [.lda, .sta, .adc] → i.mode ≠ .immediate →
    s.effectiveAddress i.operand = .ok ea → ¬ present s ea →
    exec i s = .next (faultedWith s (.memoryFault ea (some i.opcode) s.pc))

/-- The operand byte that misses memory (60_exceptions.md R136, decision D1): the record has the opcode byte, which had been
fetched. PC is 0xFFFE with one or two operand bytes to come, or 0xFFFD with two. -/
def Obligations.MissingOperandByteFaults : Prop :=
  ∀ (s : State) (d : Descriptor), s.runState = .running → s.params.memSize = .parity →
    lookup (byteAt s s.pc) = some d →
    (s.pc = 0xFFFE#16 ∧ 2 ≤ d.length ∨ s.pc = 0xFFFD#16 ∧ d.length = 3) →
    step s = .next (faultedWith s (.memoryFault 0xFFFF#16 (some (byteAt s s.pc)) s.pc))

/-- A transition to Halted comes from a BRK byte at PC and from nothing else (40_engine.md R80, 44_halt.md R129). -/
def Obligations.HaltComesOnlyFromBrk : Prop :=
  ∀ s t : State, step s = .next t → (t.runState = .halted ↔ present s s.pc ∧ byteAt s s.pc = 0x00#8)

/-- A byte stored over the next opcode is the one the next step runs (20_memory.md R49, a derivation of the spec's), whatever
the byte: the next fetch reads A, and the step is that of the instruction the bytes there make with A as the opcode; where
A is no opcode it faults, and where one of that instruction's operand bytes is missing (decision D1) it faults so. -/
def Obligations.StoreIsSeenByTheNextFetch : Prop :=
  ∀ (i : Instr) (s t : State),
    i.mnemonic = .sta → s.runState = .running → s.fetch = .ok i → step s = .next t →
    s.effectiveAddress i.operand = .ok t.pc → present s t.pc →
    t.memRead t.pc = .ok s.a ∧
    (s.a ∈ opcodeBytes →
      ∃ (j : Instr) (rest : List Byte),
        decode [s.a, byteAt t (t.pc + 1#16), byteAt t (t.pc + 2#16)] = .ok (j, rest) ∧ j.opcode = s.a ∧
        ((∀ k : Nat, k < j.length → present t (t.pc + BitVec.ofNat 16 k)) → step t = exec j t) ∧
        (∀ k : Nat, k < j.length → ¬ present t (t.pc + BitVec.ofNat 16 k) →
          step t = .next (faultedWith t (.memoryFault 0xFFFF#16 (some s.a) t.pc)))) ∧
    (s.a ∉ opcodeBytes → step t = .next (faultedWith t (.decodeError s.a t.pc)))

/-! ## The addressing-mode resolver -/

/-- 30_encoding.md R59 to R65: the effective address of the seven modes without a pointer, for any X, Y and memory, where
the operand bytes are at addresses that hold a byte. Immediate reads no memory. -/
def Obligations.ResolverOfDirectModes : Prop :=
  ∀ (s : State) (pc : Addr),
    s.resolve .immediate pc = .ok pc ∧
    (present s pc →
      s.resolve .zeroPage pc = .ok (BitVec.ofNat 16 (byteAt s pc).toNat) ∧
      s.resolve .zeroPageX pc = .ok (BitVec.ofNat 16 (((byteAt s pc).toNat + s.x.toNat) % 256)) ∧
      s.resolve .zeroPageY pc = .ok (BitVec.ofNat 16 (((byteAt s pc).toNat + s.y.toNat) % 256))) ∧
    (present s pc → present s (pc + 1#16) →
      ∀ w : Nat, w = (byteAt s (pc + 1#16)).toNat * 256 + (byteAt s pc).toNat →
      s.resolve .absolute pc = .ok (BitVec.ofNat 16 w) ∧
      s.resolve .absoluteX pc = .ok (BitVec.ofNat 16 ((w + s.x.toNat) % 65536)) ∧
      s.resolve .absoluteY pc = .ok (BitVec.ofNat 16 ((w + s.y.toNat) % 65536)))

/-- 30_encoding.md R66, R67 for both values of ZP_PTR_WRAP (decision D7): IndirectX indexes before the dereference,
IndirectY after it. -/
def Obligations.ResolverOfIndirectModes : Prop :=
  ∀ (s : State) (pc : Addr), present s pc →
    s.resolve .indirectX pc = .ok (pointer s (BitVec.ofNat 8 (((byteAt s pc).toNat + s.x.toNat) % 256))) ∧
    s.resolve .indirectY pc =
      .ok (BitVec.ofNat 16 (((pointer s (byteAt s pc)).toNat + s.y.toNat) % 65536))

/-- 30_encoding.md R68: resolving NoneAddressing faults, and no step of the engine ever meets that fault. -/
def Obligations.NoneAddressingIsNeverResolved : Prop :=
  (∀ (s : State) (pc : Addr), s.resolve .noneAddressing pc = .error .invalidAddressingMode) ∧
  (∀ (s t : State), step s = .next t → ∀ m ob oa, t.runState ≠ .faulted (.invalidAddressingMode m ob oa))

/-- The address that the meanings compute from a decoded operand is the one the resolver computes from memory with PC at
the first operand byte (40_engine.md R85). -/
def Obligations.ResolverAgreesWithTheMeanings : Prop :=
  ∀ (s : State) (i : Instr), s.fetch = .ok i →
    s.resolve i.mode (s.pc + 1#16) = s.effectiveAddress i.operand

/-! ## Memory and its interface -/

/-- 20_memory.md R37, R38: the byte written is the byte read next, every other byte is kept, and where there is no byte
(decision D1) the access faults. -/
def Obligations.MemoryReadsWhatWasWritten : Prop :=
  ∀ (s : State) (a : Addr) (v : Byte),
    (present s a → ∃ t, s.memWrite a v = .ok t ∧ t.memRead a = .ok v ∧
      (∀ b : Addr, b ≠ a → t.memRead b = s.memRead b) ∧ t = { s with mem := t.mem }) ∧
    (¬ present s a → s.memWrite a v = .error (.memoryFault a) ∧ s.memRead a = .error (.memoryFault a))

/-- Memories in canonical form that read alike at every address are the same data; the reset memory is in that form and
every write keeps it. The form is no rule of the spec but the model's choice (notes/assumptions/14.md); the value 0x00 of an
address that nothing has written is 20_memory.md R36. -/
def Obligations.CanonicalMemoriesAreEqualData : Prop :=
  (∀ m m' : Memory, m.wf = true → m'.wf = true → (∀ a : Nat, m.read a = m'.read a) → m = m') ∧
  (∀ (m : Memory) (a : Nat) (v : Byte), m.wf = true → (m.write a v).wf = true) ∧
  State.reset.mem.wf = true

/-- A word written is read back, low byte at the lower address, across 0xFFFF too (20_memory.md R39, R40, R42; the wrap is
decision D6). -/
def Obligations.WordsAreLittleEndian : Prop :=
  ∀ (s : State) (a w : Addr), present s a → present s (a + 1#16) →
    s.read16 a = .ok (BitVec.ofNat 16 ((byteAt s (a + 1#16)).toNat * 256 + (byteAt s a).toNat)) ∧
    ∃ t, s.write16 a w = .ok t ∧ t.read16 a = .ok w ∧
      byteAt t a = BitVec.ofNat 8 (w.toNat % 256) ∧ byteAt t (a + 1#16) = BitVec.ofNat 8 (w.toNat / 256)

/-- The accesses of a step, in order (20_memory.md R51, decision D10), for all 26 forms and both memory sizes: those of
`orderedAccesses`, all of them with the full memory, else up to the first that misses. Where the opcode byte misses or is no
opcode, the opcode read is the only access. The list stands beside the step (notes/assumptions/12.md). -/
def Obligations.AccessOrderOfAStep : Prop :=
  ∀ s : State, s.runState = .running →
    (∀ (i : Instr) (rest : List Byte),
      decode [byteAt s s.pc, byteAt s (s.pc + 1#16), byteAt s (s.pc + 2#16)] = .ok (i, rest) →
      s.stepAccesses = issuedOf s (orderedAccesses s i) ∧
      (s.params.memSize = .full → s.stepAccesses = orderedAccesses s i)) ∧
    (¬ present s s.pc ∨ byteAt s s.pc ∉ opcodeBytes → s.stepAccesses = [.read s.pc])

/-- A step meets a memory fault exactly when one of its accesses is at an address that holds no byte (60_exceptions.md R136,
R138, decision D1). -/
def Obligations.MemoryFaultIffAnAccessMisses : Prop :=
  ∀ s : State, s.runState = .running →
    ((∃ t a ob oa, step s = .next t ∧ t.runState = .faulted (.memoryFault a ob oa)) ↔
      ∃ x ∈ s.stepAccesses, ¬ present s x.addr)

/-- A step depends on memory only through the bytes it reads and changes only the byte it writes (20_memory.md R51 "and no
others"): with any other memory that agrees on the bytes read, it comes to the same registers and run state and writes
the same byte. A write at an address that holds no byte stores nothing (R38). -/
def Obligations.StepTouchesOnlyItsAccesses : Prop :=
  ∀ (s t : State) (m : Memory),
    step s = .next t →
    (∀ a : Addr, .read a ∈ s.stepAccesses → m.read a.toNat = byteAt s a) →
    ∃ t', step { s with mem := m } = .next t' ∧ { t' with mem := t.mem } = t ∧
      ∀ a : Addr,
        (.write a ∈ s.stepAccesses → present s a → byteAt t' a = byteAt t a) ∧
        (.write a ∉ s.stepAccesses ∨ ¬ present s a → byteAt t' a = m.read a.toNat ∧ byteAt t a = byteAt s a)

/-! ## The control surface -/

/-- 70_reset_and_hazards.md R156: the program's bytes from LOAD_BASE on, then LOAD_BASE as the reset vector, every other byte
and everything but memory kept; a program that does not fit is refused. -/
def Obligations.LoadPlacesProgramAndVector : Prop :=
  ∀ (s : State) (program : List Byte), s.runState ≠ .running →
    (s.params.memSize.bytes < s.params.loadBase.toNat + program.length →
      Control.load program s = .error .loadBoundsError) ∧
    (s.params.loadBase.toNat + program.length ≤ s.params.memSize.bytes →
      ∃ t, Control.load program s = .ok t ∧ t = { s with mem := t.mem } ∧
        byteAt t 0xFFFC#16 = BitVec.ofNat 8 (s.params.loadBase.toNat % 256) ∧
        byteAt t 0xFFFD#16 = BitVec.ofNat 8 (s.params.loadBase.toNat / 256) ∧
        ∀ a : Addr, a ≠ 0xFFFC#16 → a ≠ 0xFFFD#16 →
          byteAt t a =
            if s.params.loadBase.toNat ≤ a.toNat ∧ a.toNat < s.params.loadBase.toNat + program.length
            then program.getD (a.toNat - s.params.loadBase.toNat) 0x00#8
            else byteAt s a)

/-- 70_reset_and_hazards.md R166 (a derivation of the spec's), with its parameter values: the state in which the first
instruction of load_and_run executes. The budget of steps is notes/assumptions/16.md. -/
def Obligations.FirstInstructionState : Prop :=
  ∀ (s : State) (program : List Byte), s.runState ≠ .running → s.params = Config.specParams →
    program.length ≤ 0x8000 →
    ∃ t u v, Control.load program s = .ok t ∧ Control.reset t = .ok u ∧ Control.beginRun u = .ok v ∧
      v = { t with a := 0x00#8, x := 0x00#8, y := 0x00#8, p := 0x00#8, pc := 0x8000#16, runState := .running } ∧
      ∀ budget, Control.loadAndRun budget program s = .ok (Control.runSteps budget v)

/-- `run` by run state (70_reset_and_hazards.md R161, 60_exceptions.md R139; decisions D9 and D20): it goes on at PC from
Stopped and Halted, and gives back a Faulted core unchanged. The last clause is the model's choice: the spec says only that
no host operation happens while Running (D15), and the answer notAccepted there is notes/assumptions/15.md; the budget of
steps is notes/assumptions/16.md. -/
def Obligations.RunByRunState : Prop :=
  ∀ (s : State) (budget : Nat),
    (s.runState = .stopped ∨ s.runState = .halted →
      Control.run budget s = .ok (Control.runSteps budget { s with runState := .running })) ∧
    (∀ r, s.runState = .faulted r → Control.run budget s = .ok (.ended s)) ∧
    (s.runState = .running → Control.run budget s = .error .notAccepted)

/-- The end of a run (40_engine.md R90, 70_reset_and_hazards.md R171): an ended run is Halted or Faulted when it was Running,
a larger budget does not change it, a run is never stuck, and using the budget up is not an end. The budget of steps is
notes/assumptions/16.md. -/
def Obligations.RunEndsOnlyInHaltedOrFaulted : Prop :=
  (∀ (k j : Nat) (s t : State), s.runState = .running → Control.runSteps k s = .ended t →
    Control.runSteps (k + j) s = .ended t ∧ (t.runState = .halted ∨ ∃ r, t.runState = .faulted r)) ∧
  (∀ (k : Nat) (s t : State), Control.runSteps k s ≠ .noStep t) ∧
  (∀ (k : Nat) (s t : State), Control.runSteps k s = .notEnded t → t.runState = .running)

/-- Inspection, peek and poke (70_reset_and_hazards.md R163, R164). R149 says that no host operation happens while Running;
that inspection, peek, poke, reset, load, run and load_and_run then answer notAccepted is the model's choice
(notes/assumptions/15.md). -/
def Obligations.InspectPeekAndPoke : Prop :=
  ∀ (s : State) (a : Addr) (v : Byte),
    (s.runState ≠ .running →
      Control.inspect s = .ok ⟨s.a, s.x, s.y, s.p, s.pc⟩ ∧
      (present s a → Control.peek a s = .ok (byteAt s a) ∧
        Control.poke a v s = .ok { s with mem := s.mem.write a.toNat v }) ∧
      (¬ present s a → Control.peek a s = .error (.memoryFault a) ∧
        Control.poke a v s = .error (.memoryFault a))) ∧
    (s.runState = .running →
      Control.inspect s = .error .notAccepted ∧ Control.peek a s = .error .notAccepted ∧
      Control.poke a v s = .error .notAccepted ∧ Control.reset s = .error .notAccepted ∧
      ∀ (program : List Byte) (budget : Nat),
        Control.load program s = .error .notAccepted ∧ Control.run budget s = .error .notAccepted ∧
        Control.loadAndRun budget program s = .error .notAccepted)

/-! ## Assembler text -/

/-- The example lines of 30_encoding.md R78 (decision D16), in the spelling of notes/assumptions/24.md. -/
def Obligations.AssemblerTextOfTheExamples : Prop :=
  Instr.tax.text = ['T', 'A', 'X'] ∧
  (Instr.ldaImmediate 0xC0#8).text = ['L', 'D', 'A', ' ', '#', '$', 'C', '0'] ∧
  (Instr.ldaZeroPage 0x10#8).text = ['L', 'D', 'A', ' ', '$', '1', '0'] ∧
  (Instr.ldaZeroPageX 0x10#8).text = ['L', 'D', 'A', ' ', '$', '1', '0', ',', 'X'] ∧
  (Instr.staAbsolute 0x0200#16).text = ['S', 'T', 'A', ' ', '$', '0', '2', '0', '0'] ∧
  (Instr.staAbsoluteX 0x0200#16).text = ['S', 'T', 'A', ' ', '$', '0', '2', '0', '0', ',', 'X'] ∧
  (Instr.adcAbsoluteY 0x0200#16).text = ['A', 'D', 'C', ' ', '$', '0', '2', '0', '0', ',', 'Y'] ∧
  (Instr.ldaIndirectX 0x20#8).text = ['L', 'D', 'A', ' ', '(', '$', '2', '0', ',', 'X', ')'] ∧
  (Instr.ldaIndirectY 0x20#8).text = ['L', 'D', 'A', ' ', '(', '$', '2', '0', ')', ',', 'Y']
end

