-- ==== Sys2Proof/Laws/Memory.lean ====
section
/-! SUPPORT. Memory as data: reading after writing, the canonical form, and that it makes equal memories equal data. -/

namespace Sys2Proof.Machine.Memory

@[simp] theorem read_nil (a : Nat) : Memory.read [] a = 0x00#8 := rfl

theorem read_cons (k : Nat) (v : Byte) (t : Memory) (a : Nat) :
    Memory.read ((k, v) :: t) a = if k = a then v else Memory.read t a := rfl

theorem read_remove (m : Memory) (a b : Nat) :
    (m.remove a).read b = if b = a then 0x00#8 else m.read b := by
  induction m with
  | nil => simp [Memory.remove]
  | cons c t ih =>
    obtain ⟨k, v⟩ := c
    simp only [Memory.remove, read_cons]
    split <;> simp only [read_cons, ih] <;> grind

/-- No cell of a memory has the address that was removed from it. -/
theorem ne_of_mem_remove (m : Memory) (a : Nat) : ∀ c ∈ m.remove a, c.1 ≠ a := by
  induction m with
  | nil => simp [Memory.remove]
  | cons c t ih =>
    obtain ⟨k, v⟩ := c
    simp only [Memory.remove]
    split
    · exact ih
    · simpa [*] using ih

theorem read_insert (m : Memory) (a b : Nat) (v : Byte) (h : ∀ c ∈ m, c.1 ≠ a) :
    (Memory.insert m a v).read b = if b = a then v else m.read b := by
  induction m with
  | nil => simp only [Memory.insert, read_cons]; grind
  | cons c t ih =>
    obtain ⟨k, w⟩ := c
    have hk : k ≠ a := h (k, w) (by simp)
    have ih := ih (fun c hc => h c (by simp [hc]))
    simp only [Memory.insert]
    split <;> simp only [read_cons, ih] <;> grind

/-- READING AFTER A WRITE: the written byte at its address, every other byte as before (20_memory.md R38). -/
theorem read_write (m : Memory) (a b : Nat) (v : Byte) :
    (m.write a v).read b = if b = a then v else m.read b := by
  unfold Memory.write
  split
  · rename_i hv
    rw [read_remove, hv]
  · rw [read_insert _ _ _ _ (ne_of_mem_remove m a), read_remove]
    grind

@[simp] theorem read_write_same (m : Memory) (a : Nat) (v : Byte) : (m.write a v).read a = v := by
  simp [read_write]

theorem read_write_other (m : Memory) {a b : Nat} (v : Byte) (h : b ≠ a) :
    (m.write a v).read b = m.read b := by simp [read_write, h]

/-- Bytes stored one after the other are read one after the other, and nothing else changes. -/
theorem read_writeBytes (bs : List Byte) : ∀ (m : Memory) (a b : Nat),
    (m.writeBytes a bs).read b =
      if a ≤ b ∧ b < a + bs.length then bs.getD (b - a) 0x00#8 else m.read b := by
  induction bs with
  | nil => intro m a b; simp only [Memory.writeBytes, List.length_nil]; grind
  | cons v t ih =>
    intro m a b
    simp only [Memory.writeBytes, ih, read_write, List.length_cons]
    by_cases h : b = a
    · subst h; simp
    · by_cases h' : a + 1 ≤ b
      · have e : b - a = (b - (a + 1)) + 1 := by omega
        simp only [e, List.getD_cons_succ]
        grind
      · grind

/-! ## The canonical form -/

theorem wfFrom_mono {lo lo' : Nat} (h : lo' ≤ lo) (m : Memory) (hm : wfFrom lo m = true) :
    wfFrom lo' m = true := by
  cases m with
  | nil => rfl
  | cons c t => obtain ⟨k, v⟩ := c; simp [wfFrom] at *; grind

theorem wfFrom_remove (m : Memory) : ∀ (lo a : Nat), wfFrom lo m = true → wfFrom lo (m.remove a) = true := by
  induction m with
  | nil => intros; rfl
  | cons c t ih =>
    obtain ⟨k, v⟩ := c
    intro lo a h
    simp only [wfFrom, Bool.and_eq_true, decide_eq_true_eq] at h
    simp only [Memory.remove]
    split
    · exact wfFrom_mono (by omega) _ (ih (k + 1) a h.2)
    · simp only [wfFrom, Bool.and_eq_true, decide_eq_true_eq]
      exact ⟨h.1, ih (k + 1) a h.2⟩

theorem wfFrom_insert (m : Memory) : ∀ (lo a : Nat) (v : Byte), lo ≤ a → v ≠ 0x00#8 → (∀ c ∈ m, c.1 ≠ a) →
    wfFrom lo m = true → wfFrom lo (Memory.insert m a v) = true := by
  induction m with
  | nil => intro lo a v hlo hv _ _; simp [Memory.insert, wfFrom, hlo, hv]
  | cons c t ih =>
    obtain ⟨k, w⟩ := c
    intro lo a v hlo hv hne h
    have hk : k ≠ a := hne (k, w) (by simp)
    simp only [wfFrom, Bool.and_eq_true, decide_eq_true_eq] at h
    simp only [Memory.insert]
    split
    · simp only [wfFrom, Bool.and_eq_true, decide_eq_true_eq]
      exact ⟨⟨hlo, by simpa using hv⟩, ⟨by omega, h.1.2⟩, h.2⟩
    · simp only [wfFrom, Bool.and_eq_true, decide_eq_true_eq]
      exact ⟨h.1, ih (k + 1) a v (by omega) hv (fun c hc => hne c (by simp [hc])) h.2⟩

/-- Every write keeps the canonical form. -/
theorem wf_write (m : Memory) (a : Nat) (v : Byte) (h : m.wf = true) : (m.write a v).wf = true := by
  unfold Memory.write
  split
  · exact wfFrom_remove m 0 a h
  · rename_i hv
    exact wfFrom_insert _ 0 a v (Nat.zero_le a) hv (ne_of_mem_remove m a) (wfFrom_remove m 0 a h)

theorem wf_writeBytes (bs : List Byte) : ∀ (m : Memory) (a : Nat), m.wf = true → (m.writeBytes a bs).wf = true := by
  induction bs with
  | nil => intro m a h; exact h
  | cons b t ih => intro m a h; exact ih _ _ (wf_write m a b h)

theorem within_remove (n : Nat) (m : Memory) (a : Nat) (h : m.within n = true) : (m.remove a).within n = true := by
  induction m with
  | nil => rfl
  | cons c t ih =>
    obtain ⟨k, v⟩ := c
    simp only [Memory.within, List.all_cons, Bool.and_eq_true, decide_eq_true_eq] at h ih
    simp only [Memory.remove]
    split
    · exact ih h.2
    · simp only [Memory.within, List.all_cons, Bool.and_eq_true, decide_eq_true_eq]
      exact ⟨h.1, ih h.2⟩

theorem within_insert (n : Nat) (m : Memory) (a : Nat) (v : Byte) (ha : a < n) (h : m.within n = true) :
    (Memory.insert m a v).within n = true := by
  induction m with
  | nil => simp [Memory.insert, Memory.within, ha]
  | cons c t ih =>
    obtain ⟨k, w⟩ := c
    simp only [Memory.within, List.all_cons, Bool.and_eq_true, decide_eq_true_eq] at h ih
    simp only [Memory.insert]
    split <;> simp only [Memory.within, List.all_cons, Bool.and_eq_true, decide_eq_true_eq]
    · exact ⟨ha, h⟩
    · exact ⟨h.1, ih h.2⟩

/-- A write below `n` keeps every listed address below `n`. -/
theorem within_write (n : Nat) (m : Memory) (a : Nat) (v : Byte) (ha : a < n) (h : m.within n = true) :
    (m.write a v).within n = true := by
  unfold Memory.write
  split
  · exact within_remove n m a h
  · exact within_insert n _ a v ha (within_remove n m a h)

theorem within_writeBytes (n : Nat) (bs : List Byte) : ∀ (m : Memory) (a : Nat), a + bs.length ≤ n →
    m.within n = true → (m.writeBytes a bs).within n = true := by
  induction bs with
  | nil => intro m a _ h; exact h
  | cons b t ih =>
    intro m a ha h
    simp only [List.length_cons] at ha
    exact ih _ _ (by omega) (within_write n m a b (by omega) h)

/-- Below `lo` a canonical memory lists nothing. -/
theorem read_of_lt (m : Memory) : ∀ (lo a : Nat), wfFrom lo m = true → a < lo → m.read a = 0x00#8 := by
  induction m with
  | nil => intros; rfl
  | cons c t ih =>
    obtain ⟨k, v⟩ := c
    intro lo a h ha
    simp only [wfFrom, Bool.and_eq_true, decide_eq_true_eq] at h
    rw [read_cons, if_neg (by omega), ih (k + 1) a h.2 (by omega)]

end Sys2Proof.Machine.Memory
end

