-- ==== Sys2Proof/Laws/Ops.lean ====
section
/-! SUPPORT. What each shared operation over memory can do, and how a step ends. -/

namespace Sys2Proof.Machine

/-! ## Which addresses hold a byte -/

theorem State.hasByte_iff (s : State) (a : Addr) :
    s.hasByte a = true ↔ s.params.memSize = .full ∨ a ≠ 0xFFFF#16 := by
  have ha : a.toNat < 65536 := a.isLt
  have hne : a = 0xFFFF#16 ↔ a.toNat = 65535 := by rw [← BitVec.toNat_inj]; rfl
  unfold State.hasByte
  rw [decide_eq_true_iff, Ne, hne]
  cases s.params.memSize with
  | full => exact ⟨fun _ => .inl rfl, fun _ => ha⟩
  | parity =>
    simp only [Config.MemSize.bytes, reduceCtorEq, false_or]
    omega

/-- Page zero and the byte after it are there in either memory size. -/
theorem State.hasByte_of_lt (s : State) (a : Addr) (h : a.toNat < 65535) : s.hasByte a = true := by
  rw [State.hasByte_iff]
  refine .inr ?_
  rintro rfl
  simp at h

theorem State.hasByte_congr {s t : State} (h : t.params = s.params) (a : Addr) : t.hasByte a = s.hasByte a := by
  simp [State.hasByte, h]

@[simp] theorem State.hasByte_setMem (s : State) (m : Memory) (a : Addr) : (s.setMem m).hasByte a = s.hasByte a := rfl

/-! ## The access primitives -/

theorem State.memRead_ok {s : State} {a : Addr} (h : s.hasByte a = true) :
    s.memRead a = .ok (s.mem.read a.toNat) := by simp [State.memRead, h]

theorem State.memRead_error {s : State} {a : Addr} (h : s.hasByte a = false) :
    s.memRead a = .error (.memoryFault a) := by simp [State.memRead, h]

/-- A read that answers a byte answers the byte memory lists. -/
theorem State.memRead_eq_ok {s : State} {a : Addr} {v : Byte} (h : s.memRead a = .ok v) :
    s.hasByte a = true ∧ v = s.mem.read a.toNat := by
  unfold State.memRead at h
  split at h
  · cases h; exact ⟨by assumption, rfl⟩
  · cases h

/-- The one fault a read raises. -/
theorem State.memRead_eq_error {s : State} {a : Addr} {c : Cause} (h : s.memRead a = .error c) :
    s.hasByte a = false ∧ c = .memoryFault a := by
  unfold State.memRead at h
  split at h
  · cases h
  · cases h; exact ⟨by simpa using ‹¬ s.hasByte a = true›, rfl⟩

theorem State.memWrite_ok {s : State} {a : Addr} (v : Byte) (h : s.hasByte a = true) :
    s.memWrite a v = .ok (s.setMem (s.mem.write a.toNat v)) := by simp [State.memWrite, h]

theorem State.memWrite_error {s : State} {a : Addr} (v : Byte) (h : s.hasByte a = false) :
    s.memWrite a v = .error (.memoryFault a) := by simp [State.memWrite, h]

theorem State.memWrite_eq_ok {s t : State} {a : Addr} {v : Byte} (h : s.memWrite a v = .ok t) :
    s.hasByte a = true ∧ t = s.setMem (s.mem.write a.toNat v) := by
  unfold State.memWrite at h
  split at h
  · cases h; exact ⟨by assumption, rfl⟩
  · cases h

theorem State.read16_ok {s : State} {a : Addr} (h : s.hasByte a = true) (h' : s.hasByte (a + 1#16) = true) :
    s.read16 a = .ok (hiLo (s.mem.read (a + 1#16).toNat) (s.mem.read a.toNat)) := by
  simp [State.read16, State.memRead_ok h, State.memRead_ok h']

/-! ## Bytes and words -/

@[simp] theorem zext16_toNat (b : Byte) : (zext16 b).toNat = b.toNat := by
  have := b.isLt
  simp [zext16]; omega

theorem hiLo_toNat (hi lo : Byte) : (hiLo hi lo).toNat = hi.toNat * 256 + lo.toNat := by
  have := hi.isLt
  have := lo.isLt
  simp [hiLo]; omega

theorem hiLo_bytes (w : Addr) : hiLo (hiByte w) (loByte w) = w := by
  have := w.isLt
  apply BitVec.eq_of_toNat_eq
  rw [hiLo_toNat]
  simp [hiByte, loByte]; omega

theorem loByte_hiLo (hi lo : Byte) : loByte (hiLo hi lo) = lo := by
  have := hi.isLt
  have := lo.isLt
  apply BitVec.eq_of_toNat_eq
  simp [loByte, hiLo_toNat]; omega

theorem hiByte_hiLo (hi lo : Byte) : hiByte (hiLo hi lo) = hi := by
  have := hi.isLt
  have := lo.isLt
  apply BitVec.eq_of_toNat_eq
  simp [hiByte, hiLo_toNat]; omega

/-- The zero page is always there. -/
theorem State.memRead_zeroPage (s : State) (b : Byte) : s.memRead (zext16 b) = .ok (s.mem.read b.toNat) := by
  have := b.isLt
  rw [State.memRead_ok (s.hasByte_of_lt _ (by simp; omega)), zext16_toNat]

/-! ## The end of a step -/

theorem retire_ok (i : Instr) (s t : State) : retire i s (.ok t) = .next (t.advancePc i.length) := rfl

theorem retire_error (i : Instr) (s : State) (c : Cause) :
    retire i s (.error c) = .next (s.raise (c.record i.mnemonic i.opcode s.pc)) := rfl

/-- A step ends complete or with a fault taken in the state before it, never in another way. -/
theorem retire_cases {i : Instr} {s t : State} {e : Except Cause State} (h : retire i s e = .next t) :
    (∃ u, e = .ok u ∧ t = u.advancePc i.length) ∨
    (∃ c, e = .error c ∧ t = s.raise (c.record i.mnemonic i.opcode s.pc)) := by
  cases e with
  | ok u => exact .inl ⟨u, rfl, by simpa [retire] using h.symm⟩
  | error c => exact .inr ⟨c, rfl, by simpa [retire] using h.symm⟩

theorem retire_next (i : Instr) (s : State) (e : Except Cause State) : ∃ t, retire i s e = .next t := by
  cases e <;> exact ⟨_, rfl⟩

end Sys2Proof.Machine
end

