-- ==== Sys2Proof/Laws/Flags.lean ====
section
/-! SUPPORT. What the flag operations do to the status byte and leave alone. -/

namespace Sys2Proof.Machine

@[simp] theorem State.setFlag_p (s : State) (f : Flag) (b : Bool) : (s.setFlag f b).p = withFlag s.p f b := rfl

@[simp] theorem State.updateZN_a (s : State) (v : Byte) : (s.updateZN v).a = s.a := rfl
@[simp] theorem State.updateZN_x (s : State) (v : Byte) : (s.updateZN v).x = s.x := rfl
@[simp] theorem State.updateZN_y (s : State) (v : Byte) : (s.updateZN v).y = s.y := rfl
@[simp] theorem State.updateZN_pc (s : State) (v : Byte) : (s.updateZN v).pc = s.pc := rfl
@[simp] theorem State.updateZN_mem (s : State) (v : Byte) : (s.updateZN v).mem = s.mem := rfl
@[simp] theorem State.updateZN_runState (s : State) (v : Byte) : (s.updateZN v).runState = s.runState := rfl
@[simp] theorem State.updateZN_params (s : State) (v : Byte) : (s.updateZN v).params = s.params := rfl

/-- `UpdateZN` writes P and nothing else. -/
theorem State.updateZN_eq (s : State) (v : Byte) :
    s.updateZN v = { s with p := withFlag (withFlag s.p .z (v == 0x00#8)) .n v.msb } := rfl

/-- Writing one flag: bit by bit. -/
theorem withFlag_getLsbD (p : Byte) (f : Flag) (b : Bool) (k : Nat) (hk : k < 8) :
    (withFlag p f b).getLsbD k = if f.mask.getLsbD k then b else p.getLsbD k := by
  cases b
  · simp only [withFlag, Bool.false_eq_true, ↓reduceIte, BitVec.getLsbD_and, BitVec.getLsbD_not, hk]
    cases f.mask.getLsbD k <;> simp
  · simp only [withFlag, ↓reduceIte, BitVec.getLsbD_or]
    cases f.mask.getLsbD k <;> simp

/-- Status bits 2 to 5 are kept by every flag write (R22). -/
theorem withFlag_reserved (p : Byte) (f : Flag) (b : Bool) : withFlag p f b &&& 0x3C#8 = p &&& 0x3C#8 := by
  cases f <;> cases b <;> simp only [withFlag, Flag.mask] <;> revert p <;> decide

/-- `UpdateZN` keeps C, V and bits 2 to 5 (R29, R91). -/
theorem updateZN_keeps (p v : Byte) :
    withFlag (withFlag p .z (v == 0x00#8)) .n v.msb &&& 0x7D#8 = p &&& 0x7D#8 := by
  cases (v == 0x00#8) <;> cases v.msb <;> simp only [withFlag, Flag.mask] <;> revert p <;> decide

/-- The carry-in is bit 0 of P. -/
theorem State.flag_c (s : State) : s.flag .c = s.p.getLsbD 0 := by
  unfold State.flag
  generalize s.p = p
  simp only [Flag.mask]
  revert p
  decide

theorem adcSum_lt (a m : Byte) (c : Bool) : adcSum a m c < 512 := by
  have := a.isLt
  have := m.isLt
  have : c.toNat ≤ 1 := Bool.toNat_le c
  unfold adcSum
  omega

end Sys2Proof.Machine
end

