-- ==== Sys2Proof/Laws/Operands.lean ====
section
/-! SUPPORT. The addressing-mode resolver: zero-page pointers are always readable, the operand byte where its address holds
a byte, and the one fault where it does not. -/

namespace Sys2Proof.Machine

theorem State.pointerHighAddress_lt (s : State) (p : Byte) : (s.pointerHighAddress p).toNat < 65535 := by
  have := p.isLt
  have := (p + 1#8).isLt
  unfold State.pointerHighAddress
  split
  · rw [zext16_toNat]; omega
  · rw [BitVec.toNat_add, zext16_toNat]; simp; omega

/-- A zero-page pointer is readable in either memory size (R101 "the pointer bytes are in page zero"). -/
theorem State.readPointer_eq (s : State) (p : Byte) :
    s.readPointer p = .ok (hiLo (s.mem.read (s.pointerHighAddress p).toNat) (s.mem.read p.toNat)) := by
  simp [State.readPointer, State.memRead_zeroPage,
    State.memRead_ok (s.hasByte_of_lt _ (s.pointerHighAddress_lt p))]

/-- Resolving a decoded operand fails for NoneAddressing and for nothing else. -/
theorem State.effectiveAddressAt_eq_error {s : State} {pc : Addr} {o : Operand} {c : Cause}
    (h : s.effectiveAddressAt pc o = .error c) : o = .noneAddressing ∧ c = .invalidAddressingMode := by
  cases o <;> simp_all [State.effectiveAddressAt, State.readPointer_eq]

theorem State.operandByte_eq (s : State) (o : Operand) (ea : Addr) (hi : ∀ v, o ≠ .immediate v)
    (h : s.effectiveAddress o = .ok ea) : s.operandByte o = s.memRead ea := by
  cases o <;> simp_all [State.operandByte]

end Sys2Proof.Machine
end

