-- ==== Sys2Proof/Laws/Exec.lean ====
section
/-! SUPPORT. What an instruction can do, said once: `exec` is `retire` of the effect of its mnemonic. -/

namespace Sys2Proof.Machine

/-- `Execute` of R82 by mnemonic: the state before PC advances, or the cause of a fault. -/
def effect (i : Instr) (s : State) : Except Cause State :=
  match i.mnemonic with
  | .lda =>
    match s.operandByte i.operand with
    | .error c => .error c
    | .ok m => .ok ((s.setA m).updateZN m)
  | .sta =>
    match s.effectiveAddress i.operand with
    | .error c => .error c
    | .ok ea => s.memWrite ea s.a
  | .adc =>
    match s.operandByte i.operand with
    | .error c => .error c
    | .ok m => .ok (s.addWithCarry m)
  | .tax => .ok (s.writeX s.a)
  | .inx => .ok (s.writeX (s.x + 1#8))
  | .brk => .ok s.halt

theorem exec_eq_retire (i : Instr) (s : State) : exec i s = retire i s (effect i s) := by
  cases i <;> rfl

/-- Every instruction answers a next state. -/
theorem exec_next (i : Instr) (s : State) : ∃ t, exec i s = .next t := by
  rw [exec_eq_retire]; exact retire_next i s _

/-- What `Execute` can come to when it raises nothing: one case per mnemonic. -/
theorem effect_ok_cases {i : Instr} {s u : State} (h : effect i s = .ok u) :
    (i.mnemonic = .lda ∧ ∃ m, s.operandByte i.operand = .ok m ∧ u = (s.setA m).updateZN m) ∨
    (i.mnemonic = .sta ∧ ∃ ea, s.effectiveAddress i.operand = .ok ea ∧ s.hasByte ea = true ∧
      u = s.setMem (s.mem.write ea.toNat s.a)) ∨
    (i.mnemonic = .adc ∧ ∃ m, s.operandByte i.operand = .ok m ∧ u = s.addWithCarry m) ∨
    (i.mnemonic = .tax ∧ u = s.writeX s.a) ∨
    (i.mnemonic = .inx ∧ u = s.writeX (s.x + 1#8)) ∨
    (i.mnemonic = .brk ∧ u = s.halt) := by
  unfold effect at h
  split at h
  · split at h
    · cases h
    · cases h; exact .inl ⟨‹_›, _, ‹_›, rfl⟩
  · split at h
    · cases h
    · obtain ⟨hb, rfl⟩ := State.memWrite_eq_ok h
      exact .inr (.inl ⟨‹_›, _, ‹_›, hb, rfl⟩)
  · split at h
    · cases h
    · cases h; exact .inr (.inr (.inl ⟨‹_›, _, ‹_›, rfl⟩))
  · cases h; exact .inr (.inr (.inr (.inl ⟨‹_›, rfl⟩)))
  · cases h; exact .inr (.inr (.inr (.inr (.inl ⟨‹_›, rfl⟩))))
  · cases h; exact .inr (.inr (.inr (.inr (.inr ⟨‹_›, rfl⟩))))

/-- A form with an operand never has NoneAddressing (R73). -/
theorem operand_of_mnemonic (i : Instr) (h : i.operand = .noneAddressing) :
    i.mnemonic = .tax ∨ i.mnemonic = .inx ∨ i.mnemonic = .brk := by
  cases i <;> simp_all [Instr.operand, Instr.mnemonic]

/-- The only fault an instruction raises once decoded is the memory fault of its data access (41_load_store.md,
43_arithmetic.md, the opening of each). -/
theorem effect_error_cases {i : Instr} {s : State} {c : Cause} (h : effect i s = .error c) :
    ∃ ea, s.effectiveAddress i.operand = .ok ea ∧ s.hasByte ea = false ∧ c = .memoryFault ea ∧
      (∀ v, i.operand ≠ .immediate v) ∧ i.mnemonic ∈ [.lda, .sta, .adc] := by
  have none_case : ∀ {c'}, s.effectiveAddress i.operand = .error c' → i.mnemonic ∈ [.lda, .sta, .adc] → False := by
    intro c' hc hm
    have := operand_of_mnemonic i (State.effectiveAddressAt_eq_error hc).1
    rcases this with h | h | h <;> simp [h] at hm
  have read_case : ∀ {c'}, s.operandByte i.operand = .error c' → i.mnemonic ∈ [.lda, .sta, .adc] →
      ∃ ea, s.effectiveAddress i.operand = .ok ea ∧ s.hasByte ea = false ∧ c' = .memoryFault ea ∧
        ∀ v, i.operand ≠ .immediate v := by
    intro c' hc hm
    have himm : ∀ v, i.operand ≠ .immediate v := by
      intro v hv; simp [hv, State.operandByte] at hc
    cases hea : s.effectiveAddress i.operand with
    | error c'' => exact (none_case hea hm).elim
    | ok ea =>
      rw [State.operandByte_eq s _ ea himm hea] at hc
      obtain ⟨hb, rfl⟩ := State.memRead_eq_error hc
      exact ⟨ea, rfl, hb, rfl, himm⟩
  unfold effect at h
  split at h
  · rename_i hm
    split at h
    · rename_i c' hc
      cases h
      obtain ⟨ea, h1, h2, h3, h4⟩ := read_case hc (by simp [hm])
      exact ⟨ea, h1, h2, h3, h4, by simp [hm]⟩
    · cases h
  · rename_i hm
    split at h
    · rename_i c' hc
      exact (none_case hc (by simp [hm])).elim
    · rename_i ea hea
      have himm : ∀ v, i.operand ≠ .immediate v := by cases i <;> simp_all [Instr.operand, Instr.mnemonic]
      unfold State.memWrite at h
      split at h
      · cases h
      · cases h; exact ⟨ea, hea, by simpa using ‹¬ s.hasByte ea = true›, rfl, himm, by simp [hm]⟩
  · rename_i hm
    split at h
    · rename_i c' hc
      cases h
      obtain ⟨ea, h1, h2, h3, h4⟩ := read_case hc (by simp [hm])
      exact ⟨ea, h1, h2, h3, h4, by simp [hm]⟩
    · cases h
  · cases h
  · cases h
  · cases h

/-- The whole of what `exec` can answer. -/
theorem exec_cases {i : Instr} {s t : State} (h : exec i s = .next t) :
    (∃ u, effect i s = .ok u ∧ t = u.advancePc i.length) ∨
    (∃ c, effect i s = .error c ∧ t = s.raise (c.record i.mnemonic i.opcode s.pc)) := by
  rw [exec_eq_retire] at h; exact retire_cases h

/-! ## The fields of what ADC, TAX and INX write -/

@[simp] theorem State.addWithCarry_a (s : State) (m : Byte) :
    (s.addWithCarry m).a = adcResult s.a m (s.flag .c) := rfl
@[simp] theorem State.addWithCarry_x (s : State) (m : Byte) : (s.addWithCarry m).x = s.x := rfl
@[simp] theorem State.addWithCarry_y (s : State) (m : Byte) : (s.addWithCarry m).y = s.y := rfl
@[simp] theorem State.addWithCarry_pc (s : State) (m : Byte) : (s.addWithCarry m).pc = s.pc := rfl
@[simp] theorem State.addWithCarry_mem (s : State) (m : Byte) : (s.addWithCarry m).mem = s.mem := rfl
@[simp] theorem State.addWithCarry_runState (s : State) (m : Byte) : (s.addWithCarry m).runState = s.runState := rfl
@[simp] theorem State.addWithCarry_params (s : State) (m : Byte) : (s.addWithCarry m).params = s.params := rfl

theorem State.addWithCarry_p (s : State) (m : Byte) :
    (s.addWithCarry m).p =
      withFlag (withFlag (withFlag (withFlag s.p .c (adcCarry s.a m (s.flag .c)))
        .v (adcOverflow s.a m (s.flag .c))) .z (adcResult s.a m (s.flag .c) == 0x00#8))
        .n (adcResult s.a m (s.flag .c)).msb := rfl

@[simp] theorem State.writeX_a (s : State) (v : Byte) : (s.writeX v).a = s.a := rfl
@[simp] theorem State.writeX_x (s : State) (v : Byte) : (s.writeX v).x = v := rfl
@[simp] theorem State.writeX_y (s : State) (v : Byte) : (s.writeX v).y = s.y := rfl
@[simp] theorem State.writeX_pc (s : State) (v : Byte) : (s.writeX v).pc = s.pc := rfl
@[simp] theorem State.writeX_mem (s : State) (v : Byte) : (s.writeX v).mem = s.mem := rfl
@[simp] theorem State.writeX_runState (s : State) (v : Byte) : (s.writeX v).runState = s.runState := rfl
@[simp] theorem State.writeX_params (s : State) (v : Byte) : (s.writeX v).params = s.params := rfl

theorem State.writeX_p (s : State) (v : Byte) :
    (s.writeX v).p = withFlag (withFlag s.p .z (v == 0x00#8)) .n v.msb := rfl

end Sys2Proof.Machine
end

