-- ==== Sys2Proof/Laws/PerInstr.lean ====
section
/-! SUPPORT. Facts about every instruction form, one lemma per constructor of Instr. -/

namespace Sys2Proof.Laws

/-- The form is one R73 admits. -/
def ValidForm.Statement (i : Instr) : Prop := i.wf = true

/-- The table of R72 has the row of the form's opcode byte, with its mnemonic, its mode and its length. -/
def OpcodeInTable.Statement (i : Instr) : Prop :=
  ∃ d, lookup i.opcode = some d ∧ d.mnemonic = i.mnemonic ∧ d.mode = i.mode ∧ d.length = i.length

theorem ValidForm.brk : ValidForm.Statement (.brk) := rfl
theorem ValidForm.adcIndirectX (zp : Byte) : ValidForm.Statement (.adcIndirectX zp) := rfl
theorem ValidForm.adcZeroPage (zp : Byte) : ValidForm.Statement (.adcZeroPage zp) := rfl
theorem ValidForm.adcImmediate (value : Byte) : ValidForm.Statement (.adcImmediate value) := rfl
theorem ValidForm.adcAbsolute (base : Addr) : ValidForm.Statement (.adcAbsolute base) := rfl
theorem ValidForm.adcIndirectY (zp : Byte) : ValidForm.Statement (.adcIndirectY zp) := rfl
theorem ValidForm.adcZeroPageX (zp : Byte) : ValidForm.Statement (.adcZeroPageX zp) := rfl
theorem ValidForm.adcAbsoluteY (base : Addr) : ValidForm.Statement (.adcAbsoluteY base) := rfl
theorem ValidForm.adcAbsoluteX (base : Addr) : ValidForm.Statement (.adcAbsoluteX base) := rfl
theorem ValidForm.staIndirectX (zp : Byte) : ValidForm.Statement (.staIndirectX zp) := rfl
theorem ValidForm.staZeroPage (zp : Byte) : ValidForm.Statement (.staZeroPage zp) := rfl
theorem ValidForm.staAbsolute (base : Addr) : ValidForm.Statement (.staAbsolute base) := rfl
theorem ValidForm.staIndirectY (zp : Byte) : ValidForm.Statement (.staIndirectY zp) := rfl
theorem ValidForm.staZeroPageX (zp : Byte) : ValidForm.Statement (.staZeroPageX zp) := rfl
theorem ValidForm.staAbsoluteY (base : Addr) : ValidForm.Statement (.staAbsoluteY base) := rfl
theorem ValidForm.staAbsoluteX (base : Addr) : ValidForm.Statement (.staAbsoluteX base) := rfl
theorem ValidForm.ldaIndirectX (zp : Byte) : ValidForm.Statement (.ldaIndirectX zp) := rfl
theorem ValidForm.ldaZeroPage (zp : Byte) : ValidForm.Statement (.ldaZeroPage zp) := rfl
theorem ValidForm.ldaImmediate (value : Byte) : ValidForm.Statement (.ldaImmediate value) := rfl
theorem ValidForm.tax : ValidForm.Statement (.tax) := rfl
theorem ValidForm.ldaAbsolute (base : Addr) : ValidForm.Statement (.ldaAbsolute base) := rfl
theorem ValidForm.ldaIndirectY (zp : Byte) : ValidForm.Statement (.ldaIndirectY zp) := rfl
theorem ValidForm.ldaZeroPageX (zp : Byte) : ValidForm.Statement (.ldaZeroPageX zp) := rfl
theorem ValidForm.ldaAbsoluteY (base : Addr) : ValidForm.Statement (.ldaAbsoluteY base) := rfl
theorem ValidForm.ldaAbsoluteX (base : Addr) : ValidForm.Statement (.ldaAbsoluteX base) := rfl
theorem ValidForm.inx : ValidForm.Statement (.inx) := rfl

theorem OpcodeInTable.brk : OpcodeInTable.Statement (.brk) := ⟨_, rfl, rfl, rfl, rfl⟩
theorem OpcodeInTable.adcIndirectX (zp : Byte) : OpcodeInTable.Statement (.adcIndirectX zp) := ⟨_, rfl, rfl, rfl, rfl⟩
theorem OpcodeInTable.adcZeroPage (zp : Byte) : OpcodeInTable.Statement (.adcZeroPage zp) := ⟨_, rfl, rfl, rfl, rfl⟩
theorem OpcodeInTable.adcImmediate (value : Byte) : OpcodeInTable.Statement (.adcImmediate value) := ⟨_, rfl, rfl, rfl, rfl⟩
theorem OpcodeInTable.adcAbsolute (base : Addr) : OpcodeInTable.Statement (.adcAbsolute base) := ⟨_, rfl, rfl, rfl, rfl⟩
theorem OpcodeInTable.adcIndirectY (zp : Byte) : OpcodeInTable.Statement (.adcIndirectY zp) := ⟨_, rfl, rfl, rfl, rfl⟩
theorem OpcodeInTable.adcZeroPageX (zp : Byte) : OpcodeInTable.Statement (.adcZeroPageX zp) := ⟨_, rfl, rfl, rfl, rfl⟩
theorem OpcodeInTable.adcAbsoluteY (base : Addr) : OpcodeInTable.Statement (.adcAbsoluteY base) := ⟨_, rfl, rfl, rfl, rfl⟩
theorem OpcodeInTable.adcAbsoluteX (base : Addr) : OpcodeInTable.Statement (.adcAbsoluteX base) := ⟨_, rfl, rfl, rfl, rfl⟩
theorem OpcodeInTable.staIndirectX (zp : Byte) : OpcodeInTable.Statement (.staIndirectX zp) := ⟨_, rfl, rfl, rfl, rfl⟩
theorem OpcodeInTable.staZeroPage (zp : Byte) : OpcodeInTable.Statement (.staZeroPage zp) := ⟨_, rfl, rfl, rfl, rfl⟩
theorem OpcodeInTable.staAbsolute (base : Addr) : OpcodeInTable.Statement (.staAbsolute base) := ⟨_, rfl, rfl, rfl, rfl⟩
theorem OpcodeInTable.staIndirectY (zp : Byte) : OpcodeInTable.Statement (.staIndirectY zp) := ⟨_, rfl, rfl, rfl, rfl⟩
theorem OpcodeInTable.staZeroPageX (zp : Byte) : OpcodeInTable.Statement (.staZeroPageX zp) := ⟨_, rfl, rfl, rfl, rfl⟩
theorem OpcodeInTable.staAbsoluteY (base : Addr) : OpcodeInTable.Statement (.staAbsoluteY base) := ⟨_, rfl, rfl, rfl, rfl⟩
theorem OpcodeInTable.staAbsoluteX (base : Addr) : OpcodeInTable.Statement (.staAbsoluteX base) := ⟨_, rfl, rfl, rfl, rfl⟩
theorem OpcodeInTable.ldaIndirectX (zp : Byte) : OpcodeInTable.Statement (.ldaIndirectX zp) := ⟨_, rfl, rfl, rfl, rfl⟩
theorem OpcodeInTable.ldaZeroPage (zp : Byte) : OpcodeInTable.Statement (.ldaZeroPage zp) := ⟨_, rfl, rfl, rfl, rfl⟩
theorem OpcodeInTable.ldaImmediate (value : Byte) : OpcodeInTable.Statement (.ldaImmediate value) := ⟨_, rfl, rfl, rfl, rfl⟩
theorem OpcodeInTable.tax : OpcodeInTable.Statement (.tax) := ⟨_, rfl, rfl, rfl, rfl⟩
theorem OpcodeInTable.ldaAbsolute (base : Addr) : OpcodeInTable.Statement (.ldaAbsolute base) := ⟨_, rfl, rfl, rfl, rfl⟩
theorem OpcodeInTable.ldaIndirectY (zp : Byte) : OpcodeInTable.Statement (.ldaIndirectY zp) := ⟨_, rfl, rfl, rfl, rfl⟩
theorem OpcodeInTable.ldaZeroPageX (zp : Byte) : OpcodeInTable.Statement (.ldaZeroPageX zp) := ⟨_, rfl, rfl, rfl, rfl⟩
theorem OpcodeInTable.ldaAbsoluteY (base : Addr) : OpcodeInTable.Statement (.ldaAbsoluteY base) := ⟨_, rfl, rfl, rfl, rfl⟩
theorem OpcodeInTable.ldaAbsoluteX (base : Addr) : OpcodeInTable.Statement (.ldaAbsoluteX base) := ⟨_, rfl, rfl, rfl, rfl⟩
theorem OpcodeInTable.inx : OpcodeInTable.Statement (.inx) := ⟨_, rfl, rfl, rfl, rfl⟩

end Sys2Proof.Laws
end

