-- ==== Sys2Proof/Laws/Step.lean ====
section
/-! SUPPORT. What a fetch and a step can do, said once. -/

namespace Sys2Proof.Machine

/-- A found descriptor is a row of the table, under the byte it was looked up by. -/
theorem lookup_mem {op : Byte} {d : Descriptor} (h : lookup op = some d) : d ∈ opcodeTable ∧ d.byte = op := by
  unfold lookup at h
  exact ⟨List.mem_of_find?_eq_some h, by simpa using List.find?_some h⟩

/-- Each row of the table has a form, whatever its operand bytes, with the row's byte, mode and length. -/
theorem row_form {op : Byte} {d : Descriptor} (h : lookup op = some d) (bytes : List Byte) :
    match operandOf d.mode bytes with
    | none => bytes.length < d.length - 1
    | some (o, after) => ∃ i, formOf d.mnemonic o = some i ∧ i.opcode = op ∧ i.operand = o ∧ i.mnemonic = d.mnemonic ∧
        i.length = d.length ∧ bytes = o.bytes ++ after := by
  obtain ⟨hm, hb⟩ := lookup_mem h
  simp only [opcodeTable, tableBrkAdc, tableSta, tableLdaTaxInx, List.cons_append, List.nil_append,
    List.mem_cons, List.not_mem_nil, or_false] at hm
  rcases bytes with _ | ⟨b0, _ | ⟨b1, t⟩⟩ <;>
    rcases hm with rfl | rfl | rfl | rfl | rfl | rfl | rfl | rfl | rfl | rfl | rfl | rfl | rfl | rfl | rfl | rfl | rfl |
      rfl | rfl | rfl | rfl | rfl | rfl | rfl | rfl | rfl <;>
    simp [operandOf, formOf, ← hb, Instr.opcode, Instr.operand, Instr.mnemonic, Instr.length, Instr.mode, Operand.mode,
      Mode.operandBytes, Operand.bytes, loByte_hiLo, hiByte_hiLo]

/-- Bytes read are as many as were asked for. -/
theorem State.readBytes_length {s : State} : ∀ {n : Nat} {a : Addr} {bs : List Byte},
    s.readBytes a n = .ok bs → bs.length = n := by
  intro n
  induction n with
  | zero => intro a bs h; cases h; rfl
  | succ n ih =>
    intro a bs h
    unfold State.readBytes at h
    split at h
    · cases h
    · split at h
      · cases h
      · cases h; simp [ih ‹_›]

/-- Reading bytes raises a memory fault or nothing. -/
theorem State.readBytes_error {s : State} : ∀ {n : Nat} {a : Addr} {c : Cause},
    s.readBytes a n = .error c → ∃ k < n, s.hasByte (a + BitVec.ofNat 16 k) = false ∧ c = .memoryFault (a + BitVec.ofNat 16 k) ∧
      ∀ j < k, s.hasByte (a + BitVec.ofNat 16 j) = true := by
  intro n
  induction n with
  | zero => intro a c h; cases h
  | succ n ih =>
    intro a c h
    unfold State.readBytes at h
    split at h
    · rename_i c' hc
      cases h
      obtain ⟨hb, rfl⟩ := State.memRead_eq_error hc
      exact ⟨0, by omega, by simpa using hb, by simp, by omega⟩
    · rename_i b hb
      split at h
      · rename_i c' hc
        cases h
        obtain ⟨k, hk, h1, h2, h3⟩ := ih hc
        have e : ∀ j : Nat, a + 1#16 + BitVec.ofNat 16 j = a + BitVec.ofNat 16 (j + 1) := by
          intro j; rw [BitVec.add_assoc]; congr 1; apply BitVec.eq_of_toNat_eq; simp; omega
        refine ⟨k + 1, by omega, by rw [← e]; exact h1, by rw [← e]; exact h2, ?_⟩
        intro j hj
        cases j with
        | zero => simpa using (State.memRead_eq_ok hb).1
        | succ j => rw [← e]; exact h3 j (by omega)
      · cases h

/-- THE FETCH, said once: an instruction, or the record of one of the three faults a fetch can meet. -/
theorem State.fetch_cases (s : State) :
    (s.hasByte s.pc = false ∧ s.fetch = .error (.memoryFault s.pc none s.pc)) ∨
    (s.hasByte s.pc = true ∧ lookup (s.mem.read s.pc.toNat) = none ∧
      s.fetch = .error (.decodeError (s.mem.read s.pc.toNat) s.pc)) ∨
    (∃ d a, s.hasByte s.pc = true ∧ lookup (s.mem.read s.pc.toNat) = some d ∧
      s.readBytes (s.pc + 1#16) (d.length - 1) = .error (.memoryFault a) ∧
      s.fetch = .error (.memoryFault a (some (s.mem.read s.pc.toNat)) s.pc)) ∨
    (∃ d bs i, s.hasByte s.pc = true ∧ lookup (s.mem.read s.pc.toNat) = some d ∧
      s.readBytes (s.pc + 1#16) (d.length - 1) = .ok bs ∧
      i.opcode = s.mem.read s.pc.toNat ∧ i.mnemonic = d.mnemonic ∧ i.length = d.length ∧ bs = i.operand.bytes ∧
      s.fetch = .ok i) := by
  cases hb : s.hasByte s.pc with
  | false => exact .inl ⟨rfl, by simp [State.fetch, State.memRead_error hb]⟩
  | true =>
    refine .inr ?_
    cases hl : lookup (s.mem.read s.pc.toNat) with
    | none => exact .inl ⟨rfl, rfl, by simp [State.fetch, State.memRead_ok hb, hl]⟩
    | some d =>
      refine .inr ?_
      cases hr : s.readBytes (s.pc + 1#16) (d.length - 1) with
      | error c =>
        obtain ⟨k, _, _, rfl, _⟩ := State.readBytes_error hr
        exact .inl ⟨d, _, rfl, rfl, hr, by simp [State.fetch, State.memRead_ok hb, hl, hr, Cause.record]⟩
      | ok bs =>
        refine .inr ?_
        have hf := row_form hl bs
        have hlen := State.readBytes_length hr
        cases ho : operandOf d.mode bs with
        | none => rw [ho] at hf; simp only at hf; omega
        | some r =>
          obtain ⟨o, after⟩ := r
          rw [ho] at hf
          obtain ⟨i, h1, h2, h3, h4, h5, h6⟩ := hf
          have hob : o.bytes.length = d.length - 1 := by
            rw [← h5, ← h3]; cases i <;> rfl
          have : after = [] := by
            have := congrArg List.length h6
            simp only [List.length_append] at this
            exact List.eq_nil_of_length_eq_zero (by omega)
          subst this
          refine ⟨d, bs, i, rfl, rfl, hr, h2, h4, h5, by simpa [h3] using h6, ?_⟩
          simp [State.fetch, State.memRead_ok hb, hl, hr, decode, ho, h1]

theorem step_running {s : State} (h : s.runState = .running) :
    step s = match s.fetch with
      | .ok i => exec i s
      | .error r => .next (s.raise r) := by
  cases hf : s.fetch <;> simp [step, h, hf]

theorem step_not_running {s : State} (h : s.runState ≠ .running) : step s = .fault (.noStep s.runState) := by
  unfold step; split <;> simp_all

/-- THE STEP, said once: it needs Running, and it runs the fetched instruction or takes the fault of the fetch. -/
theorem step_cases {s t : State} (h : step s = .next t) :
    s.runState = .running ∧
    ((∃ i, s.fetch = .ok i ∧ exec i s = .next t) ∨ (∃ r, s.fetch = .error r ∧ t = s.raise r)) := by
  by_cases hr : s.runState = .running
  · refine ⟨hr, ?_⟩
    rw [step_running hr] at h
    split at h
    · exact .inl ⟨_, ‹_›, h⟩
    · exact .inr ⟨_, ‹_›, by simpa using h.symm⟩
  · rw [step_not_running hr] at h; cases h

end Sys2Proof.Machine
end

