-- ==== Sys2Proof/Tests/Slice0.lean ====
section
/-! SUPPORT. The model's own tests: the checks of WellFormed refuse ill-formed terms, words written out from the spec's
encodings decode, single steps from the worked examples of the spec's rules and of 95_test_vectors.md, and, for every
statement with hypotheses, a witness that meets them. -/

namespace Sys2Proof.Tests

open Sys2Proof Sys2Proof.Machine Sys2Proof.Claims

/-! ## WellFormed refuses -/

theorem test_lda_without_operand_refused : (⟨0xA9#8, .lda, .noneAddressing, 1, 2⟩ : Descriptor).wf = false := by decide
theorem test_adc_zero_page_y_refused : (⟨0x69#8, .adc, .zeroPageY, 2, 2⟩ : Descriptor).wf = false := by decide
theorem test_sta_immediate_refused : (⟨0x89#8, .sta, .immediate, 2, 2⟩ : Descriptor).wf = false := by decide
theorem test_tax_with_operand_refused : (⟨0xAA#8, .tax, .zeroPage, 2, 2⟩ : Descriptor).wf = false := by decide
theorem test_wrong_length_refused : (⟨0xAD#8, .lda, .absolute, 2, 4⟩ : Descriptor).wf = false := by decide
theorem test_duplicate_byte_refused :
    Descriptor.tableWf [⟨0xAA#8, .tax, .noneAddressing, 1, 2⟩, ⟨0xAA#8, .inx, .noneAddressing, 1, 2⟩] = false := by decide
theorem test_table_accepted : Descriptor.tableWf opcodeTable = true := by decide
theorem test_unsorted_memory_refused : Memory.wf [(2, 0x01#8), (1, 0x01#8)] = false := by decide
theorem test_listed_zero_refused : Memory.wf [(1, 0x00#8)] = false := by decide

/-! ## Words written out from the spec's encodings (R95 to R129) -/

theorem test_decode_brk_tax_inx :
    decode [0x00#8] = .ok (.brk, []) ∧ decode [0xAA#8] = .ok (.tax, []) ∧ decode [0xE8#8] = .ok (.inx, []) := by decide
theorem test_decode_lda :
    decode [0xA9#8, 0xC0#8] = .ok (.ldaImmediate 0xC0#8, []) ∧
    decode [0xA5#8, 0x10#8] = .ok (.ldaZeroPage 0x10#8, []) ∧
    decode [0xB5#8, 0x71#8] = .ok (.ldaZeroPageX 0x71#8, []) ∧
    decode [0xAD#8, 0x34#8, 0x12#8] = .ok (.ldaAbsolute 0x1234#16, []) ∧
    decode [0xBD#8, 0xFF#8, 0x12#8] = .ok (.ldaAbsoluteX 0x12FF#16, []) ∧
    decode [0xB9#8, 0x00#8, 0x02#8] = .ok (.ldaAbsoluteY 0x0200#16, []) ∧
    decode [0xA1#8, 0x20#8] = .ok (.ldaIndirectX 0x20#8, []) ∧
    decode [0xB1#8, 0x20#8] = .ok (.ldaIndirectY 0x20#8, []) := by decide
theorem test_decode_sta :
    decode [0x85#8, 0x10#8] = .ok (.staZeroPage 0x10#8, []) ∧
    decode [0x95#8, 0xFF#8] = .ok (.staZeroPageX 0xFF#8, []) ∧
    decode [0x8D#8, 0x00#8, 0x02#8] = .ok (.staAbsolute 0x0200#16, []) ∧
    decode [0x9D#8, 0xF8#8, 0xFF#8] = .ok (.staAbsoluteX 0xFFF8#16, []) ∧
    decode [0x99#8, 0x34#8, 0x12#8] = .ok (.staAbsoluteY 0x1234#16, []) ∧
    decode [0x81#8, 0x10#8] = .ok (.staIndirectX 0x10#8, []) ∧
    decode [0x91#8, 0xFF#8] = .ok (.staIndirectY 0xFF#8, []) := by decide
theorem test_decode_adc :
    decode [0x69#8, 0x05#8] = .ok (.adcImmediate 0x05#8, []) ∧
    decode [0x65#8, 0x10#8] = .ok (.adcZeroPage 0x10#8, []) ∧
    decode [0x75#8, 0xFF#8] = .ok (.adcZeroPageX 0xFF#8, []) ∧
    decode [0x6D#8, 0x00#8, 0x02#8] = .ok (.adcAbsolute 0x0200#16, []) ∧
    decode [0x7D#8, 0x00#8, 0x03#8] = .ok (.adcAbsoluteX 0x0300#16, []) ∧
    decode [0x79#8, 0x00#8, 0x04#8] = .ok (.adcAbsoluteY 0x0400#16, []) ∧
    decode [0x61#8, 0x30#8] = .ok (.adcIndirectX 0x30#8, []) ∧
    decode [0x71#8, 0x40#8] = .ok (.adcIndirectY 0x40#8, []) := by decide
/-- Bytes of the 6502 that this core has not (R75, R111, R114; FLT-2). -/
theorem test_decode_undecodable :
    ([0xEA#8, 0x18#8, 0x4C#8, 0x89#8, 0xFF#8, 0x01#8, 0x8A#8, 0xA8#8, 0xC8#8, 0xCA#8].all
      fun b => lookup b == none) = true := by decide
theorem test_decode_truncated : decode [0xAD#8, 0x34#8] = .error (.truncated 0xAD#8) := by decide
theorem test_table_word : decodeTableWord 8 0xA5 = some (.ldaZeroPage 0x00#8) := by decide
theorem test_table_word_three_bytes : decodeTableWord 24 0x1234AD = some (.ldaAbsolute 0x1234#16) := by decide

/-! ## Single steps -/

/-- A running state with bytes at 0x8000 and cells elsewhere. -/
def ready (a x y p : Byte) (bytes : List Byte) (cells : List (Nat × Byte)) : State :=
  { a := a, x := x, y := y, pc := 0x8000#16, p := p
    mem := cells.foldl (fun m c => m.write c.1 c.2) (Memory.writeBytes [] 0x8000 bytes)
    runState := .running, params := Config.specParams }

/-- The same, at another PC, in parity mode. -/
def readyParity (pc : Addr) (bytes : List Byte) : State :=
  { ready 0x07#8 0x00#8 0x00#8 0x00#8 [] [] with
    pc := pc, mem := Memory.writeBytes [] pc.toNat bytes, params := Config.parityParams }

/-- The next state, where there is one. -/
def next? (o : Host.Outcome State Fault Refusal) : Option State :=
  match o with
  | .next t => some t
  | .fault _ => none
  | .refused _ => none

theorem of_next? {o : Host.Outcome State Fault Refusal} {t : State} (h : next? o = some t) : o = .next t := by
  unfold next? at h; split at h <;> simp_all

/-- A, X, P and PC after a step. -/
def regs (s : State) : Option (Byte × Byte × Byte × Addr) :=
  (next? (step s)).map fun t => (t.a, t.x, t.p, t.pc)

/-- A byte of memory, P and PC after a step. -/
def cell (s : State) (a : Nat) : Option (Byte × Byte × Addr) :=
  (next? (step s)).map fun t => (t.mem.read a, t.p, t.pc)

/-- LDA-1 -/
theorem test_lda_immediate : regs (ready 0x55#8 0x00#8 0x00#8 0xC1#8 [0xA9#8, 0x00#8] []) =
    some (0x00#8, 0x00#8, 0x43#8, 0x8002#16) := by decide

/-- LDA-2 -/
theorem test_lda_zero_page : regs (ready 0x00#8 0x00#8 0x00#8 0x00#8 [0xA5#8, 0x10#8] [(0x0010, 0x55#8)]) =
    some (0x55#8, 0x00#8, 0x00#8, 0x8002#16) := by decide

/-- LDA-6 -/
theorem test_lda_zero_page_x_wraps : regs (ready 0x00#8 0x02#8 0x00#8 0x00#8 [0xB5#8, 0xFF#8] [(0x0001, 0x09#8)]) =
    some (0x09#8, 0x02#8, 0x00#8, 0x8002#16) := by decide

/-- LDA-7 -/
theorem test_lda_absolute_own_byte : regs (ready 0x00#8 0x00#8 0x00#8 0x00#8 [0xAD#8, 0x00#8, 0x80#8] []) =
    some (0xAD#8, 0x00#8, 0x80#8, 0x8003#16) := by decide

/-- LDA-8 -/
theorem test_lda_absolute_x_wraps : regs (ready 0x00#8 0x01#8 0x00#8 0x00#8 [0xBD#8, 0xFF#8, 0xFF#8] [(0x0000, 0x3C#8)]) =
    some (0x3C#8, 0x01#8, 0x00#8, 0x8003#16) := by decide

/-- RES-9 with LDA -/
theorem test_lda_absolute_y : regs (ready 0x00#8 0x00#8 0x10#8 0x00#8 [0xB9#8, 0xF8#8, 0xFF#8] [(0x0008, 0x01#8)]) =
    some (0x01#8, 0x00#8, 0x00#8, 0x8003#16) := by decide

/-- LDA-10 -/
theorem test_lda_indirect_x : regs (ready 0x00#8 0x04#8 0x00#8 0x00#8 [0xA1#8, 0x20#8] [(0x0024, 0x00#8), (0x0025, 0x30#8), (0x3000, 0x99#8)]) =
    some (0x99#8, 0x04#8, 0x80#8, 0x8002#16) := by decide

/-- RES-12 with LDA -/
theorem test_lda_indirect_x_pointer_at_ff : regs (ready 0x00#8 0x00#8 0x00#8 0x00#8 [0xA1#8, 0xFF#8] [(0x0000, 0x05#8), (0x0100, 0x77#8), (0x0500, 0x12#8), (0x7700, 0x34#8)]) =
    some (0x12#8, 0x00#8, 0x00#8, 0x8002#16) := by decide

/-- RES-13 with LDA -/
theorem test_lda_indirect_y : regs (ready 0x00#8 0x04#8 0x04#8 0x00#8 [0xB1#8, 0x20#8] [(0x0020, 0x00#8), (0x0021, 0x40#8), (0x4004, 0x11#8)]) =
    some (0x11#8, 0x04#8, 0x00#8, 0x8002#16) := by decide

/-- STA-1 -/
theorem test_sta_zero_page : cell (ready 0x42#8 0x00#8 0x00#8 0xC3#8 [0x85#8, 0x10#8] []) 0x0010 =
    some (0x42#8, 0xC3#8, 0x8002#16) := by decide

/-- STA-2 -/
theorem test_sta_zero_page_x_wraps : cell (ready 0x01#8 0x02#8 0x00#8 0x00#8 [0x95#8, 0xFF#8] []) 0x0001 =
    some (0x01#8, 0x00#8, 0x8002#16) := by decide

/-- STA-3 -/
theorem test_sta_absolute : cell (ready 0xAB#8 0x00#8 0x00#8 0x00#8 [0x8D#8, 0x00#8, 0x02#8] []) 0x0200 =
    some (0xAB#8, 0x00#8, 0x8003#16) := by decide

/-- STA-4 -/
theorem test_sta_absolute_x_wraps : cell (ready 0x05#8 0x10#8 0x00#8 0x00#8 [0x9D#8, 0xF8#8, 0xFF#8] []) 0x0008 =
    some (0x05#8, 0x00#8, 0x8003#16) := by decide

/-- STA-5 -/
theorem test_sta_absolute_y : cell (ready 0x07#8 0x00#8 0x00#8 0x00#8 [0x99#8, 0x34#8, 0x12#8] []) 0x1234 =
    some (0x07#8, 0x00#8, 0x8003#16) := by decide

/-- STA-6 -/
theorem test_sta_indirect_x : cell (ready 0xAB#8 0x02#8 0x00#8 0x00#8 [0x81#8, 0x10#8] [(0x0012, 0x00#8), (0x0013, 0x03#8)]) 0x0300 =
    some (0xAB#8, 0x00#8, 0x8002#16) := by decide

/-- STA-7 -/
theorem test_sta_indirect_y_pointer_at_ff : cell (ready 0x3C#8 0x00#8 0x00#8 0x00#8 [0x91#8, 0xFF#8] [(0x00FF, 0x00#8), (0x0000, 0x05#8)]) 0x0500 =
    some (0x3C#8, 0x00#8, 0x8002#16) := by decide

/-- STA-8 -/
theorem test_sta_zero_removes_the_cell : cell (ready 0x00#8 0x00#8 0x00#8 0x00#8 [0x8D#8, 0xFC#8, 0xFF#8] [(0xFFFC, 0x34#8)]) 0xFFFC =
    some (0x00#8, 0x00#8, 0x8003#16) := by decide

/-- REG-1 -/
theorem test_tax_zero : regs (ready 0x00#8 0x55#8 0x00#8 0x41#8 [0xAA#8] []) =
    some (0x00#8, 0x00#8, 0x43#8, 0x8001#16) := by decide

/-- REG-3 -/
theorem test_tax_rewrites_z : regs (ready 0x7F#8 0x7F#8 0x00#8 0x02#8 [0xAA#8] []) =
    some (0x7F#8, 0x7F#8, 0x00#8, 0x8001#16) := by decide

/-- REG-4 -/
theorem test_inx_wraps : regs (ready 0x00#8 0xFF#8 0x00#8 0x01#8 [0xE8#8] []) =
    some (0x00#8, 0x00#8, 0x03#8, 0x8001#16) := by decide

/-- REG-6 -/
theorem test_inx_to_negative : regs (ready 0x00#8 0x7F#8 0x00#8 0x00#8 [0xE8#8] []) =
    some (0x00#8, 0x80#8, 0x80#8, 0x8001#16) := by decide

/-- ADC-9 -/
theorem test_adc_immediate : regs (ready 0x80#8 0x00#8 0x00#8 0x01#8 [0x69#8, 0xFF#8] []) =
    some (0x80#8, 0x00#8, 0x81#8, 0x8002#16) := by decide

/-- ADC-4 from a status with V and N set -/
theorem test_adc_immediate_keeps_nothing_old : regs (ready 0x00#8 0x00#8 0x00#8 0xC0#8 [0x69#8, 0x00#8] []) =
    some (0x00#8, 0x00#8, 0x02#8, 0x8002#16) := by decide

/-- ADC-2 -/
theorem test_adc_zero_page : regs (ready 0x7F#8 0x00#8 0x00#8 0x00#8 [0x65#8, 0x10#8] [(0x0010, 0x01#8)]) =
    some (0x80#8, 0x00#8, 0xC0#8, 0x8002#16) := by decide

/-- ADC-3 -/
theorem test_adc_zero_page_x : regs (ready 0xFF#8 0x01#8 0x00#8 0x00#8 [0x75#8, 0xFF#8] [(0x0000, 0x01#8)]) =
    some (0x00#8, 0x01#8, 0x03#8, 0x8002#16) := by decide

/-- ADC-7 -/
theorem test_adc_absolute : regs (ready 0x80#8 0x00#8 0x00#8 0x00#8 [0x6D#8, 0x00#8, 0x02#8] [(0x0200, 0x80#8)]) =
    some (0x00#8, 0x00#8, 0x43#8, 0x8003#16) := by decide

/-- R125 -/
theorem test_adc_absolute_x : regs (ready 0x50#8 0x02#8 0x00#8 0x01#8 [0x7D#8, 0x00#8, 0x03#8] [(0x0302, 0x2F#8)]) =
    some (0x80#8, 0x02#8, 0xC0#8, 0x8003#16) := by decide

/-- ADC-10 -/
theorem test_adc_absolute_y : regs (ready 0xFF#8 0x00#8 0x00#8 0x01#8 [0x79#8, 0x00#8, 0x04#8] [(0x0400, 0xFF#8)]) =
    some (0xFF#8, 0x00#8, 0x81#8, 0x8003#16) := by decide

/-- ADC-16 -/
theorem test_adc_indirect_x : regs (ready 0x01#8 0x00#8 0x00#8 0x00#8 [0x61#8, 0x30#8] [(0x0030, 0x00#8), (0x0031, 0x05#8), (0x0500, 0xFF#8)]) =
    some (0x00#8, 0x00#8, 0x03#8, 0x8002#16) := by decide

/-- ADC-14 -/
theorem test_adc_indirect_y : regs (ready 0xD0#8 0x00#8 0x00#8 0x00#8 [0x71#8, 0x40#8] [(0x0040, 0x00#8), (0x0041, 0x06#8), (0x0600, 0x90#8)]) =
    some (0x60#8, 0x00#8, 0x41#8, 0x8002#16) := by decide

/-- ENG-1 -/
theorem test_brk : next? (step (ready 0x01#8 0x02#8 0x00#8 0xC3#8 [0x00#8] [])) =
    some { ready 0x01#8 0x02#8 0x00#8 0xC3#8 [0x00#8] [] with pc := 0x8001#16, runState := .halted } := by decide

/-- ENG-4: INX at 0xFFFF leaves PC at 0x0000. -/
theorem test_pc_wraps :
    regs { ready 0x00#8 0x00#8 0x00#8 0x00#8 [] [(0xFFFF, 0xE8#8)] with pc := 0xFFFF#16 } =
      some (0x00#8, 0x01#8, 0x00#8, 0x0000#16) := by decide

/-- ENG-5: the operand bytes across 0xFFFF. -/
theorem test_operand_across_the_top :
    regs { ready 0x00#8 0x00#8 0x00#8 0x00#8 []
        [(0xFFFE, 0xAD#8), (0xFFFF, 0x34#8), (0x0000, 0x12#8), (0x1234, 0x99#8)] with pc := 0xFFFE#16 } =
      some (0x99#8, 0x00#8, 0x80#8, 0x0001#16) := by decide

/-- FLT-1 -/
theorem test_decode_error : next? (step (ready 0x01#8 0x02#8 0x00#8 0xC3#8 [0x02#8] [])) =
    some { ready 0x01#8 0x02#8 0x00#8 0xC3#8 [0x02#8] [] with runState := .faulted (.decodeError 0x02#8 0x8000#16) } := by
  decide

/-- LDA-13, and the codes of R132. -/
theorem test_parity_fault : (next? (step (readyParity 0x8000#16 [0xAD#8, 0xFF#8, 0xFF#8]))).map
      (fun t => (t.a, t.p, t.pc, t.faultRecord, t.faultRecord.map FaultRecord.code)) =
    some (0x07#8, 0x00#8, 0x8000#16, some (.memoryFault 0xFFFF#16 (some 0xAD#8) 0x8000#16), some 3) := by decide

/-- FLT-5 -/
theorem test_parity_fetch_fault : (next? (step (readyParity 0xFFFF#16 []))).map State.faultRecord =
    some (some (.memoryFault 0xFFFF#16 none 0xFFFF#16)) := by decide

/-- RES-5 and RES-17 -/
theorem test_resolver_zero_page_y :
    (ready 0x00#8 0x00#8 0x81#8 0x00#8 [0x00#8, 0x80#8] []).resolve .zeroPageY 0x8001#16 = .ok 0x0001#16 ∧
    (ready 0x00#8 0x00#8 0x00#8 0x00#8 [] []).resolve .noneAddressing 0x8001#16 = .error .invalidAddressingMode := by
  decide

/-- RES-12 with `ZP_PTR_WRAP = false` -/
theorem test_resolver_without_pointer_wrap :
    State.resolve { ready 0x00#8 0x00#8 0x00#8 0x00#8 [0x00#8, 0xFF#8] [(0x0000, 0x05#8), (0x0100, 0x77#8)] with
      params := { Config.specParams with zpPtrWrap := false } } .indirectX 0x8001#16 = .ok 0x7700#16 := by decide

/-- RST-2: `RESET_ZERO_CV = false` keeps C of P = 0x03. -/
theorem test_reset_keeping_carry :
    (match Control.reset { ready 0x00#8 0x00#8 0x00#8 0x03#8 [] [(0xFFFD, 0x80#8)] with
        runState := .halted, params := { Config.specParams with resetZeroCV := false } } with
      | .ok t => some (t.a, t.p, t.pc, t.runState)
      | .error _ => none) = some (0x00#8, 0x01#8, 0x8000#16, .stopped) := by decide

/-- P1: the source's end-to-end program, through the control surface. -/
theorem test_source_program :
    (match Control.loadAndRun 4 [0xA9#8, 0xC0#8, 0xAA#8, 0xE8#8, 0x00#8] State.reset with
      | .ok (.ended t) => some (t.a, t.x, t.p, t.pc, t.runState)
      | _ => none) = some (0xC0#8, 0xC1#8, 0x80#8, 0x8005#16, .halted) := by decide

/-- R78: the assembler text of an absolute operand below 0x100 has four digits. -/
theorem test_assembler_text : (Instr.adcAbsolute 0x0010#16).text = ['A', 'D', 'C', ' ', '$', '0', '0', '1', '0'] := by
  decide

/-- After reset, with a row's word placed where step fetches, step runs that row's instruction. -/
theorem test_first_instruction_after_reset :
    (opcodeTable.all fun d =>
      let s := State.reset.withFetchWord 8 d.byte.toNat
      match decodeTableWord 8 d.byte.toNat with
      | none => false
      | some i => i.opcode == d.byte && next? (step s) == next? (exec i s) && (next? (step s)).isSome) = true := by decide

/-! ## Witnesses: the hypotheses of each statement can be met -/

/-- A running state with the full memory, about to store A at 0x0010. -/
def full : State := ready 0x42#8 0x01#8 0x00#8 0x01#8 [0x85#8, 0x10#8] []
/-- A running state in parity mode, about to do the same. -/
def parity : State := readyParity 0x8000#16 [0x85#8, 0x10#8]

theorem witness_ResetInitialisesRegisters : State.reset.runState ≠ .running := by decide
theorem witness_EveryStepKeepsTheInvariant : ∃ t, full.Inv ∧ step full = .next t :=
  ⟨{ full with mem := full.mem.write 0x10 0x42#8, pc := 0x8002#16 }, by decide, of_next? (by decide)⟩
theorem witness_ReachableStatesHaveYZero : Reachable State.reset :=
  .reset (.construct Config.specParams) (by decide)
theorem witness_StepRunsTheDecodedInstruction :
    full.runState = .running ∧
    decode [byteAt full full.pc, byteAt full (full.pc + 1#16), byteAt full (full.pc + 2#16)] =
      .ok (.staZeroPage 0x10#8, [0x00#8]) ∧
    ∀ k : Nat, k < (Instr.staZeroPage 0x10#8).length → present full (full.pc + BitVec.ofNat 16 k) :=
  ⟨by decide, by decide, fun _ _ => .inl (by decide)⟩
theorem witness_EncodeOfDecodeIsTheBytes : decode [0xAA#8, 0x01#8] = .ok (.tax, [0x01#8]) := by decide
theorem witness_UndecodableBytesFault : ∃ s : State,
    s.runState = .running ∧ present s s.pc ∧ byteAt s s.pc ∉ opcodeBytes :=
  ⟨ready 0x00#8 0x00#8 0x00#8 0x00#8 [0xFF#8] [], by decide⟩

/-- The direct forms at the edge of both memories: 0xFFFF with the full one, 0xFFFE in parity mode. -/
theorem witness_LdaLoadsTheOperandByte_absolute : present full 0xFFFF#16 ∧ present parity 0xFFFE#16 := by decide
/-- AbsoluteX: the sum that wraps to 0x0000 is there in parity mode. -/
theorem witness_LdaLoadsTheOperandByte_absoluteX :
    present { parity with x := 0x01#8 } (0xFFFF#16 + zext16 0x01#8) ∧ present full (0xFFFE#16 + zext16 full.x) := by decide
theorem witness_LdaLoadsTheOperandByte_absoluteY :
    present { parity with y := 0x01#8 } (0xFFFF#16 + zext16 0x01#8) ∧ present full (0xFFFF#16 + zext16 full.y) := by decide
/-- The pointer at 0xFF, in both settings of ZP_PTR_WRAP. -/
theorem witness_LdaLoadsTheOperandByte_indirectX :
    present parity (pointer parity (0xFF#8 + parity.x)) ∧
    present { parity with params := { Config.parityParams with zpPtrWrap := false } }
      (pointer { parity with params := { Config.parityParams with zpPtrWrap := false } } 0xFF#8) := by decide
theorem witness_LdaLoadsTheOperandByte_indirectY : present parity (pointer parity 0xFF#8 + zext16 parity.y) := by decide
/-- STA and ADC have the same hypotheses, form by form. -/
theorem witness_StaStoresTheAccumulator :
    present full 0xFFFF#16 ∧ present parity (0xFFFE#16 + zext16 parity.x) ∧ present parity (0xFFFE#16 + zext16 parity.y) ∧
    present parity (pointer parity (0xFF#8 + parity.x)) ∧ present parity (pointer parity 0xFF#8 + zext16 parity.y) := by decide
theorem witness_AdcAddsWithCarry :
    present full 0xFFFF#16 ∧ present parity (0xFFFE#16 + zext16 parity.x) ∧ present parity (0xFFFE#16 + zext16 parity.y) ∧
    present parity (pointer parity (0xFF#8 + parity.x)) ∧ present parity (pointer parity 0xFF#8 + zext16 parity.y) := by decide
/-- The read back, at the edge of both memories. -/
theorem witness_StaStoresTheAccumulator_readBack : present full 0xFFFF#16 ∧ present parity 0xFFFE#16 := by decide
theorem witness_StaChangesOneByte : ∃ t : State,
    (Instr.staAbsolute 0xFFFF#16).mnemonic = .sta ∧
    full.effectiveAddress (Instr.staAbsolute 0xFFFF#16).operand = .ok 0xFFFF#16 ∧ present full 0xFFFF#16 ∧
    exec (.staAbsolute 0xFFFF#16) full = .next t :=
  ⟨{ full with mem := full.mem.write 0xFFFF 0x42#8, pc := 0x8003#16 }, by decide, by decide, by decide, of_next? (by decide)⟩
theorem witness_OverflowIsSignedOverflow : ∃ s t : State, exec (.adcImmediate 0x00#8) s = .next t ∧ t.flag .v = true :=
  ⟨{ full with a := 0x7F#8 }, { full with a := 0x80#8, p := 0xC0#8, pc := 0x8002#16 }, of_next? (by decide), by decide⟩
theorem witness_TaxCopiesAToX : ∃ s u : State,
    (s.runState = .running ∧ present s s.pc ∧ byteAt s s.pc = 0xAA#8) ∧ (u.runState = .running ∧ ¬ present u u.pc) :=
  ⟨ready 0x00#8 0x00#8 0x00#8 0x00#8 [0xAA#8] [], readyParity 0xFFFF#16 [], by decide, by decide⟩
theorem witness_InxIncrementsX : ∃ s u : State,
    (s.runState = .running ∧ present s s.pc ∧ byteAt s s.pc = 0xE8#8) ∧ (u.runState = .running ∧ ¬ present u u.pc) :=
  ⟨ready 0x00#8 0x00#8 0x00#8 0x00#8 [0xE8#8] [], readyParity 0xFFFF#16 [], by decide, by decide⟩
theorem witness_BrkHalts : ∃ s u : State,
    (s.runState = .running ∧ present s s.pc ∧ byteAt s s.pc = 0x00#8) ∧ (u.runState = .running ∧ ¬ present u u.pc) :=
  ⟨readyParity 0xFFFE#16 [], readyParity 0xFFFF#16 [], by decide, by decide⟩
theorem witness_BrkHalts_halted :
    full.halt.runState = .halted ∧ ∃ t : State, full.runState = .running ∧ exec .brk full = .next t ∧ t.runState = .halted :=
  ⟨by decide, { full with pc := 0x8001#16, runState := .halted }, by decide, of_next? (by decide), by decide⟩
theorem witness_CarryJoinsTwoByteSums : ∃ s s1 s2 s3 : State,
    s.a = loByte 0x01FF#16 ∧ s.flag .c = false ∧
    exec (.adcImmediate (loByte 0x0001#16)) s = .next s1 ∧
    exec (.ldaImmediate (hiByte 0x01FF#16)) s1 = .next s2 ∧
    exec (.adcImmediate (hiByte 0x0001#16)) s2 = .next s3 :=
  ⟨{ full with a := 0xFF#8, p := 0x00#8 }, { full with a := 0x00#8, p := 0x03#8, pc := 0x8002#16 },
    { full with a := 0x01#8, p := 0x01#8, pc := 0x8004#16 }, { full with a := 0x02#8, p := 0x00#8, pc := 0x8006#16 },
    by decide, by decide, of_next? (by decide), of_next? (by decide), of_next? (by decide)⟩
/-- One instruction of each of the three kinds of R29. -/
theorem witness_UnnamedFlagsAreKept : ∃ t u v : State,
    exec .brk full = .next t ∧ exec .inx full = .next u ∧ exec (.adcImmediate 0x00#8) full = .next v :=
  ⟨_, _, _, (exec_next .brk full).choose_spec, (exec_next .inx full).choose_spec,
    (exec_next (.adcImmediate 0x00#8) full).choose_spec⟩
theorem witness_NoInstructionWritesY : ∃ t u : State, exec .tax full = .next t ∧ step full = .next u :=
  ⟨_, _, (exec_next .tax full).choose_spec, witness_EveryStepKeepsTheInvariant.choose_spec.2⟩
theorem witness_OnlyTheNamedWritersWrite : ∃ t : State, exec .brk full = .next t := exec_next .brk full
theorem witness_ControlFlowIsSequential : ∃ t : State, step full = .next t :=
  ⟨_, witness_EveryStepKeepsTheInvariant.choose_spec.2⟩
theorem witness_StepIsDefinedExactlyInRunning : full.runState = .running ∧ State.reset.runState ≠ .running := by decide
theorem witness_NoStepIsANamedStop : (State.reset.halt).runState ≠ .running := by decide
theorem witness_FaultsCommitNothing : ∃ (s t : State) (r : FaultRecord), step s = .next t ∧ t.runState = .faulted r :=
  ⟨readyParity 0xFFFF#16 [],
    { readyParity 0xFFFF#16 [] with runState := .faulted (.memoryFault 0xFFFF#16 none 0xFFFF#16) },
    .memoryFault 0xFFFF#16 none 0xFFFF#16, of_next? (by decide), by decide⟩
theorem witness_FullMemoryHasNoMemoryFault : ∃ t : State, full.params.memSize = .full ∧ step full = .next t :=
  ⟨_, by decide, witness_EveryStepKeepsTheInvariant.choose_spec.2⟩
theorem witness_MissingDataByteFaults :
    (Instr.staAbsolute 0xFFFF#16).mnemonic ∈ [Mnemonic.lda, .sta, .adc] ∧ (Instr.staAbsolute 0xFFFF#16).mode ≠ .immediate ∧
    parity.effectiveAddress (Instr.staAbsolute 0xFFFF#16).operand = .ok 0xFFFF#16 ∧ ¬ present parity 0xFFFF#16 := by decide
/-- Both clauses on PC: 0xFFFE with one operand byte to come, 0xFFFD with two. -/
theorem witness_MissingOperandByteFaults :
    (∃ (s : State) (d : Descriptor), s.runState = .running ∧ s.params.memSize = .parity ∧
      lookup (byteAt s s.pc) = some d ∧ s.pc = 0xFFFE#16 ∧ 2 ≤ d.length) ∧
    (∃ (s : State) (d : Descriptor), s.runState = .running ∧ s.params.memSize = .parity ∧
      lookup (byteAt s s.pc) = some d ∧ s.pc = 0xFFFD#16 ∧ d.length = 3) :=
  ⟨⟨readyParity 0xFFFE#16 [0xA9#8], ⟨0xA9#8, .lda, .immediate, 2, 2⟩, by decide⟩,
    ⟨readyParity 0xFFFD#16 [0xAD#8, 0x34#8], ⟨0xAD#8, .lda, .absolute, 3, 4⟩, by decide⟩⟩
theorem witness_HaltComesOnlyFromBrk : ∃ s t : State, step s = .next t ∧ t.runState = .halted :=
  ⟨readyParity 0xFFFE#16 [], { readyParity 0xFFFE#16 [] with pc := 0xFFFF#16, runState := .halted },
    of_next? (by decide), by decide⟩
/-- A store over the next opcode, of LDA Absolute, whose operand bytes stand behind it. -/
theorem witness_StoreIsSeenByTheNextFetch : ∃ (i : Instr) (s t : State),
    i.mnemonic = .sta ∧ s.runState = .running ∧ s.fetch = .ok i ∧ step s = .next t ∧
    s.effectiveAddress i.operand = .ok t.pc ∧ present s t.pc ∧ s.a ∈ opcodeBytes ∧
    decode [s.a, byteAt t (t.pc + 1#16), byteAt t (t.pc + 2#16)] = .ok (.ldaAbsolute 0x1234#16, []) ∧
    ∀ k : Nat, k < 3 → present t (t.pc + BitVec.ofNat 16 k) :=
  ⟨.staAbsolute 0x8003#16, ready 0xAD#8 0x00#8 0x00#8 0x00#8 [0x8D#8, 0x03#8, 0x80#8, 0xFF#8, 0x34#8, 0x12#8] [],
    { ready 0xAD#8 0x00#8 0x00#8 0x00#8 [0x8D#8, 0x03#8, 0x80#8, 0xAD#8, 0x34#8, 0x12#8] [] with pc := 0x8003#16 },
    by decide, by decide, by decide, of_next? (by decide), by decide, by decide, by decide, by decide,
    fun _ _ => .inl (by decide)⟩
/-- A store at 0xFFFE in parity mode, of LDA Immediate, whose operand byte is missing. -/
theorem witness_StoreIsSeenByTheNextFetch_missing : ∃ (i : Instr) (s t : State),
    i.mnemonic = .sta ∧ s.runState = .running ∧ s.fetch = .ok i ∧ step s = .next t ∧
    s.effectiveAddress i.operand = .ok t.pc ∧ present s t.pc ∧ s.a ∈ opcodeBytes ∧
    decode [s.a, byteAt t (t.pc + 1#16), byteAt t (t.pc + 2#16)] = .ok (.ldaImmediate 0x00#8, [0x00#8]) ∧
    ¬ present t (t.pc + BitVec.ofNat 16 1) :=
  ⟨.staAbsolute 0xFFFE#16, { readyParity 0xFFFB#16 [0x8D#8, 0xFE#8, 0xFF#8] with a := 0xA9#8 },
    { readyParity 0xFFFB#16 [0x8D#8, 0xFE#8, 0xFF#8, 0xA9#8] with a := 0xA9#8, pc := 0xFFFE#16 },
    by decide, by decide, by decide, of_next? (by decide), by decide, by decide, by decide, by decide, by decide⟩
theorem witness_StoreIsSeenByTheNextFetch_undecodable : ∃ (i : Instr) (s t : State),
    i.mnemonic = .sta ∧ s.runState = .running ∧ s.fetch = .ok i ∧ step s = .next t ∧
    s.effectiveAddress i.operand = .ok t.pc ∧ present s t.pc ∧ s.a ∉ opcodeBytes :=
  ⟨.staAbsolute 0x8003#16, ready 0x02#8 0x00#8 0x00#8 0x00#8 [0x8D#8, 0x03#8, 0x80#8] [],
    { ready 0x02#8 0x00#8 0x00#8 0x00#8 [0x8D#8, 0x03#8, 0x80#8, 0x02#8] [] with pc := 0x8003#16 },
    by decide, by decide, by decide, of_next? (by decide), by decide, by decide, by decide⟩
/-- The last operand address of parity mode, and the word across 0xFFFF with the full memory. -/
theorem witness_ResolverOfDirectModes :
    present parity 0xFFFE#16 ∧ present full 0xFFFF#16 ∧ present full (0xFFFF#16 + 1#16) := by decide
theorem witness_ResolverOfIndirectModes : present parity 0xFFFE#16 := by decide
theorem witness_NoneAddressingIsNeverResolved : ∃ s t : State, step s = .next t ∧ t.isFaulted = true :=
  ⟨readyParity 0xFFFF#16 [],
    { readyParity 0xFFFF#16 [] with runState := .faulted (.memoryFault 0xFFFF#16 none 0xFFFF#16) },
    of_next? (by decide), by decide⟩
theorem witness_ResolverAgreesWithTheMeanings : full.fetch = .ok (.staZeroPage 0x10#8) := by decide
theorem witness_MemoryReadsWhatWasWritten : present full 0xFFFF#16 ∧ ¬ present parity 0xFFFF#16 := by decide
theorem witness_CanonicalMemoriesAreEqualData :
    Memory.wf (Memory.write [(1, 0x01#8)] 1 0x00#8) = true ∧ Memory.write [(1, 0x01#8)] 1 0x00#8 = [] ∧
    ∀ a : Nat, Memory.read (Memory.write [(1, 0x01#8)] 1 0x00#8) a = Memory.read [] a :=
  ⟨by decide, by decide, fun _ => rfl⟩
theorem witness_WordsAreLittleEndian : present full 0xFFFF#16 ∧ present full (0xFFFF#16 + 1#16) := by decide
/-- A running state for each shape of the list, the opcode that is none and the opcode that is missing. -/
theorem witness_AccessOrderOfAStep :
    decode (ready 0x00#8 0x00#8 0x00#8 0x00#8 [0xA9#8, 0x01#8] []).bytesAtPc = .ok (.ldaImmediate 0x01#8, [0x00#8]) ∧
    decode (ready 0x00#8 0x00#8 0x00#8 0x00#8 [0x75#8, 0xFF#8] []).bytesAtPc = .ok (.adcZeroPageX 0xFF#8, [0x00#8]) ∧
    decode (ready 0x00#8 0x00#8 0x00#8 0x00#8 [0x9D#8, 0xFF#8, 0xFF#8] []).bytesAtPc = .ok (.staAbsoluteX 0xFFFF#16, []) ∧
    decode (ready 0x00#8 0x00#8 0x00#8 0x00#8 [0x81#8, 0xFF#8] []).bytesAtPc = .ok (.staIndirectX 0xFF#8, [0x00#8]) ∧
    decode (ready 0x00#8 0x00#8 0x00#8 0x00#8 [0xB1#8, 0xFF#8] []).bytesAtPc = .ok (.ldaIndirectY 0xFF#8, [0x00#8]) ∧
    decode (ready 0x00#8 0x00#8 0x00#8 0x00#8 [0xAA#8] []).bytesAtPc = .ok (.tax, [0x00#8, 0x00#8]) ∧
    full.params.memSize = .full ∧ full.runState = .running ∧
    byteAt (ready 0x00#8 0x00#8 0x00#8 0x00#8 [0xFF#8] []) 0x8000#16 ∉ opcodeBytes ∧
    (readyParity 0xFFFF#16 []).runState = .running ∧
    ¬ present (readyParity 0xFFFF#16 []) (readyParity 0xFFFF#16 []).pc := by decide
theorem witness_MemoryFaultIffAnAccessMisses :
    parity.runState = .running ∧ Access.read 0xFFFF#16 ∈ (readyParity 0xFFFE#16 [0xA9#8]).stepAccesses ∧
    ¬ present parity 0xFFFF#16 := by decide
/-- A memory that differs from the state's own outside the bytes the step reads. -/
theorem witness_StepTouchesOnlyItsAccesses : ∃ t : State,
    step full = .next t ∧
    (∀ a : Addr, .read a ∈ full.stepAccesses → Memory.read (full.mem.write 0x1234 0x99#8) a.toNat = byteAt full a) ∧
    full.stepAccesses = [.read 0x8000#16, .read 0x8001#16, .write 0x0010#16] := by
  refine ⟨_, witness_EveryStepKeepsTheInvariant.choose_spec.2, fun a ha => ?_, by decide⟩
  have e : full.stepAccesses = [.read 0x8000#16, .read 0x8001#16, .write 0x0010#16] := by decide
  rw [e] at ha
  simp only [List.mem_cons, Access.read.injEq, reduceCtorEq, List.not_mem_nil, or_false] at ha
  rcases ha with rfl | rfl <;> decide
/-- A program that just fits, and one that does not. -/
theorem witness_LoadPlacesProgramAndVector :
    State.reset.runState ≠ .running ∧
    State.reset.params.loadBase.toNat + (List.replicate 0x8000 0x00#8).length ≤ State.reset.params.memSize.bytes ∧
    State.reset.params.memSize.bytes < State.reset.params.loadBase.toNat + (List.replicate 0x8001 0x00#8).length := by
  refine ⟨by decide, ?_, ?_⟩ <;> rw [List.length_replicate] <;> decide
theorem witness_FirstInstructionState :
    State.reset.runState ≠ .running ∧ State.reset.params = Config.specParams ∧ [0x00#8].length ≤ 0x8000 := by decide
theorem witness_RunByRunState :
    State.reset.runState = .stopped ∧ State.reset.halt.runState = .halted ∧
    (State.reset.raise (.decodeError 0x02#8 0x0000#16)).runState = .faulted (.decodeError 0x02#8 0x0000#16) ∧
    full.runState = .running := by decide
theorem witness_RunEndsOnlyInHaltedOrFaulted :
    (ready 0x00#8 0x00#8 0x00#8 0x00#8 [0x00#8] []).runState = .running ∧
    Control.runSteps 1 (ready 0x00#8 0x00#8 0x00#8 0x00#8 [0x00#8] []) =
      .ended { ready 0x00#8 0x00#8 0x00#8 0x00#8 [0x00#8] [] with pc := 0x8001#16, runState := .halted } ∧
    Control.runSteps 0 full = .notEnded full := by decide
theorem witness_InspectPeekAndPoke :
    State.reset.runState ≠ .running ∧ present State.reset 0xFFFF#16 ∧
    ¬ present (Control.construct Config.parityParams) 0xFFFF#16 ∧ full.runState = .running := by decide

end Sys2Proof.Tests
end

section
/-! The family 10_state.md: which bits of P an instruction keeps (R29), and the power-on state (R31). -/

namespace Sys2Proof.Machine

/-! ## The bits of P an instruction keeps -/

/-- The bits of P that a mnemonic's rule does not name (R29): all of them for STA and BRK, all but Z and N for LDA, TAX and
INX, bits 2 to 5 for ADC. -/
def unnamedBits : Mnemonic → Byte
  | .sta | .brk => 0xFF#8
  | .lda | .tax | .inx => 0x7D#8
  | .adc => 0x3C#8

theorem State.updateZN_p_keeps (s : State) (v : Byte) : (s.updateZN v).p &&& 0x7D#8 = s.p &&& 0x7D#8 :=
  updateZN_keeps s.p v

theorem State.writeX_p_keeps (s : State) (v : Byte) : (s.writeX v).p &&& 0x7D#8 = s.p &&& 0x7D#8 :=
  (s.setX v).updateZN_p_keeps v

theorem State.addWithCarry_p_keeps (s : State) (m : Byte) : (s.addWithCarry m).p &&& 0x3C#8 = s.p &&& 0x3C#8 := by
  simp only [State.addWithCarry_p, withFlag_reserved]

theorem effect_keeps_unnamedBits {i : Instr} {s u : State} (h : effect i s = .ok u) :
    u.p &&& unnamedBits i.mnemonic = s.p &&& unnamedBits i.mnemonic := by
  obtain ⟨hm, m, -, rfl⟩ | ⟨hm, ea, -, -, rfl⟩ | ⟨hm, m, -, rfl⟩ | ⟨hm, rfl⟩ | ⟨hm, rfl⟩ | ⟨hm, rfl⟩ :=
    effect_ok_cases h <;> rw [hm]
  · exact (s.setA m).updateZN_p_keeps m
  · rfl
  · exact s.addWithCarry_p_keeps m
  · exact s.writeX_p_keeps s.a
  · exact s.writeX_p_keeps (s.x + 1#8)
  · rfl

/-- R29 over the whole of an instruction: a fault keeps all of P, and advancing PC does too. -/
theorem exec_keeps_unnamedBits {i : Instr} {s t : State} (h : exec i s = .next t) :
    t.p &&& unnamedBits i.mnemonic = s.p &&& unnamedBits i.mnemonic := by
  obtain ⟨u, hu, rfl⟩ | ⟨c, -, rfl⟩ := exec_cases h
  · rw [State.advancePc_p, effect_keeps_unnamedBits hu]
  · rw [State.raise_p]

end Sys2Proof.Machine

open Sys2Proof Sys2Proof.Machine

/-- Settles O22, by the mask of kept bits of each mnemonic. -/
theorem unnamedFlagsAreKept : Obligations.UnnamedFlagsAreKept := by
  intro i s t h
  have kept := exec_keeps_unnamedBits h
  refine ⟨?_, ?_, ?_⟩
  · have all (p : Byte) : p &&& 0xFF#8 = p := BitVec.and_allOnes
    rintro (hm | hm) <;> simpa only [hm, unnamedBits, all] using kept
  · rintro (hm | hm | hm) <;> simpa only [hm, unnamedBits] using kept
  · intro hm
    simpa only [hm, unnamedBits] using kept

/-- Settles O1: the power-on state lists no byte, so every address reads 0x00 (R36). -/
theorem constructionZeroesEverything : Obligations.ConstructionZeroesEverything := by
  intro q
  exact ⟨rfl, rfl, rfl, rfl, rfl, rfl, rfl, fun a => Memory.read_nil a.toNat⟩
end

section
/-! The family 30_encoding.md: the resolver through the operand its bytes make (R57 to R65), and the faults a step can end
with (R68, R132). -/

namespace Sys2Proof.Machine

/-! ## The resolver and the decoder's operand -/

/-- In a mode of one operand byte the resolver answers the address of the operand that the byte at `pc` makes. -/
theorem State.resolve_of_operandOf_byte {s : State} {m : Mode} {pc : Addr} {o : Operand} (h : s.hasByte pc = true)
    (ho : operandOf m [s.mem.read pc.toNat] = some (o, [])) : s.resolve m pc = s.effectiveAddressAt pc o := by
  cases m with
  | noneAddressing | absolute | absoluteX | absoluteY => simp [operandOf] at ho
  | immediate => cases ho; rfl
  | zeroPage | zeroPageX | zeroPageY | indirectX | indirectY =>
    cases ho
    simp only [State.resolve, State.memRead_ok h]

/-- In a mode of two operand bytes the resolver answers the address of the operand that the bytes from `pc` on make. -/
theorem State.resolve_of_operandOf_word {s : State} {m : Mode} {pc : Addr} {o : Operand} (h : s.hasByte pc = true)
    (h' : s.hasByte (pc + 1#16) = true)
    (ho : operandOf m [s.mem.read pc.toNat, s.mem.read (pc + 1#16).toNat] = some (o, [])) :
    s.resolve m pc = s.effectiveAddressAt pc o := by
  cases m with
  | noneAddressing | immediate | zeroPage | zeroPageX | zeroPageY | indirectX | indirectY => simp [operandOf] at ho
  | absolute | absoluteX | absoluteY =>
    cases ho
    simp only [State.resolve, State.read16_ok h h']

/-! ## The index additions as numbers -/

theorem zext16_eq_ofNat (b : Byte) : zext16 b = BitVec.ofNat 16 b.toNat := by
  rw [← zext16_toNat b, BitVec.ofNat_toNat, BitVec.setWidth_eq]

/-- The zero-page index addition stays within page zero (R61, R62). -/
theorem zext16_add (b c : Byte) : zext16 (b + c) = BitVec.ofNat 16 ((b.toNat + c.toNat) % 256) := by
  rw [zext16_eq_ofNat, BitVec.toNat_add]

/-- The absolute index addition is modulo 65536 (R64, R65). -/
theorem ofNat_add_zext16 (w : Nat) (b : Byte) :
    BitVec.ofNat 16 w + zext16 b = BitVec.ofNat 16 ((w + b.toNat) % 65536) := by
  apply BitVec.eq_of_toNat_eq
  rw [BitVec.toNat_add, zext16_toNat, BitVec.toNat_ofNat, BitVec.toNat_ofNat]
  omega

/-! ## The faults a step can end with -/

/-- `Execute` that raises nothing leaves the run state, or halts. -/
theorem effect_runState {i : Instr} {s u : State} (h : effect i s = .ok u) :
    u.runState = s.runState ∨ u.runState = .halted := by
  obtain ⟨-, m, -, rfl⟩ | ⟨-, ea, -, -, rfl⟩ | ⟨-, m, -, rfl⟩ | ⟨-, rfl⟩ | ⟨-, rfl⟩ | ⟨-, rfl⟩ :=
    effect_ok_cases h
  case inr.inr.inr.inr.inr => exact .inr rfl
  all_goals exact .inl rfl

/-- THE FAULTS OF A STEP, said once: taken in the state before it, a DecodeError of the byte at PC or a MemoryFault of an
address that holds no byte. InvalidAddressingMode is not among them (R68). -/
theorem step_faulted_cases {s t : State} {r : FaultRecord} (h : step s = .next t) (ht : t.runState = .faulted r) :
    t = s.raise r ∧
      ((lookup (s.mem.read s.pc.toNat) = none ∧ r = .decodeError (s.mem.read s.pc.toNat) s.pc) ∨
        ∃ a op, s.hasByte a = false ∧ r = .memoryFault a op s.pc) := by
  obtain ⟨hrun, ⟨i, -, he⟩ | ⟨r', hf, rfl⟩⟩ := step_cases h
  · obtain ⟨u, hu, rfl⟩ | ⟨c, hc, rfl⟩ := exec_cases he
    · rw [State.advancePc_runState] at ht
      obtain hr | hr := effect_runState hu <;> simp [hr, hrun] at ht
    · obtain rfl := RunState.faulted.inj ht
      obtain ⟨ea, -, hb, rfl, -, -⟩ := effect_error_cases hc
      exact ⟨rfl, .inr ⟨ea, _, hb, rfl⟩⟩
  · obtain rfl := RunState.faulted.inj ht
    refine ⟨rfl, ?_⟩
    obtain ⟨hb, e⟩ | ⟨-, hl, e⟩ | ⟨d, a, -, -, hr, e⟩ | ⟨d, bs, i, -, -, -, -, -, -, -, e⟩ := s.fetch_cases <;>
      cases hf.symm.trans e
    · exact .inr ⟨s.pc, none, hb, rfl⟩
    · exact .inl ⟨hl, rfl⟩
    · obtain ⟨k, -, hb, hk, -⟩ := State.readBytes_error hr
      obtain rfl := Cause.memoryFault.inj hk
      exact .inr ⟨_, _, hb, rfl⟩

end Sys2Proof.Machine

open Sys2Proof Sys2Proof.Machine

/-- Settles O34: each mode resolves the operand its bytes make, and the index additions are modulo 256 and 65536. -/
theorem resolverOfDirectModes : Obligations.ResolverOfDirectModes := by
  intro s pc
  refine ⟨rfl, fun hp => ?_, fun hlo hhi w hw => ?_⟩
  · have byte {m o} := State.resolve_of_operandOf_byte (m := m) (o := o) ((s.hasByte_iff pc).2 hp)
    refine ⟨?_, ?_, ?_⟩
    · rw [byte rfl, ← zext16_eq_ofNat]; rfl
    · rw [byte rfl, ← zext16_add]; rfl
    · rw [byte rfl, ← zext16_add]; rfl
  · have word {m o} := State.resolve_of_operandOf_word (m := m) (o := o) ((s.hasByte_iff pc).2 hlo)
      ((s.hasByte_iff _).2 hhi)
    subst hw
    refine ⟨?_, ?_, ?_⟩
    · rw [word rfl]; rfl
    · rw [word rfl, ← ofNat_add_zext16]; rfl
    · rw [word rfl, ← ofNat_add_zext16]; rfl

/-- Settles O36: the resolver's own arm, and that a step ends Faulted with a DecodeError or a MemoryFault only. -/
theorem noneAddressingIsNeverResolved : Obligations.NoneAddressingIsNeverResolved := by
  refine ⟨fun _ _ => rfl, fun s t h m ob oa ht => ?_⟩
  obtain ⟨-, ⟨-, hr⟩ | ⟨a, op, -, hr⟩⟩ := step_faulted_cases h ht <;> cases hr
end

section
/-! The family 40_engine.md: where a step leaves PC and the run state (R82, R89), and when there is a step (R81). -/

namespace Sys2Proof.Machine

/-! ## PC and the run state at the end of a step -/

theorem mnemonic_eq_brk_iff (i : Instr) : i.mnemonic = .brk ↔ i = .brk := by
  cases i <;> simp [Instr.mnemonic]

/-- Advancing PC is modulo 65536 (R21). -/
theorem State.advancePc_pc_mod (s : State) (n : Nat) :
    (s.advancePc n).pc = BitVec.ofNat 16 ((s.pc.toNat + n) % 65536) := by
  apply BitVec.eq_of_toNat_eq
  simp [BitVec.toNat_add]

/-- `Execute` leaves PC to the end of the step (R82, R87). -/
theorem effect_pc {i : Instr} {s u : State} (h : effect i s = .ok u) : u.pc = s.pc := by
  obtain ⟨-, m, -, rfl⟩ | ⟨-, ea, -, -, rfl⟩ | ⟨-, m, -, rfl⟩ | ⟨-, rfl⟩ | ⟨-, rfl⟩ | ⟨-, rfl⟩ :=
    effect_ok_cases h <;> rfl

/-- BRK halts, and no other instruction writes the run state (R86, R129). -/
theorem effect_runState_of_form {i : Instr} {s u : State} (h : effect i s = .ok u) :
    i ≠ .brk ∧ u.runState = s.runState ∨ i = .brk ∧ u.runState = .halted := by
  rw [Ne, ← mnemonic_eq_brk_iff]
  obtain ⟨hm, m, -, rfl⟩ | ⟨hm, ea, -, -, rfl⟩ | ⟨hm, m, -, rfl⟩ | ⟨hm, rfl⟩ | ⟨hm, rfl⟩ | ⟨hm, rfl⟩ :=
    effect_ok_cases h <;> rw [hm]
  case inr.inr.inr.inr.inr => exact .inr ⟨rfl, rfl⟩
  all_goals exact .inl ⟨nofun, rfl⟩

/-- In Running every state has a step, faults included (R81, R134). -/
theorem step_next_of_running {s : State} (h : s.runState = .running) : ∃ t, step s = .next t := by
  rw [step_running h]
  cases s.fetch with
  | ok i => exact exec_next i s
  | error r => exact ⟨_, rfl⟩

theorem State.stepAccesses_not_running {s : State} (h : s.runState ≠ .running) : s.stepAccesses = [] := by
  unfold State.stepAccesses
  split
  · contradiction
  · rfl
  · rfl
  · rfl

end Sys2Proof.Machine

open Sys2Proof Sys2Proof.Machine

/-- Settles O25, by the two ends of a step: the effect of the fetched instruction with PC advanced, or a fault, of the
fetch or of the instruction, taken in the state before the step. -/
theorem controlFlowIsSequential : Obligations.ControlFlowIsSequential := by
  intro s t h
  obtain ⟨hrun, ⟨i, hf, he⟩ | ⟨r, -, rfl⟩⟩ := step_cases h
  · obtain ⟨u, hu, rfl⟩ | ⟨c, -, rfl⟩ := exec_cases he
    · refine .inl ⟨i, hf, ?_, ?_⟩
      · rw [State.advancePc_pc_mod, effect_pc hu]
      · rw [State.advancePc_runState, ← hrun]
        exact effect_runState_of_form hu
    · exact .inr ⟨_, rfl⟩
  · exact .inr ⟨r, rfl⟩

/-- Settles O26: both answers of the fetch lead to a next state, and a step asks for Running. -/
theorem stepIsDefinedExactlyInRunning : Obligations.StepIsDefinedExactlyInRunning := by
  refine fun s => ⟨step_next_of_running, fun h => ⟨fun t ht => ?_, State.stepAccesses_not_running h⟩⟩
  exact h (step_cases ht).1
end

section
/-! The family 41_load_store.md: LDA (R94) and STA (R103) in every form, from the effective address of the form and what
the two mnemonics do there. -/

namespace Sys2Proof.Machine

open Sys2Proof.Claims

/-! ## The effective address of a decoded operand -/

theorem present_zext16 (s : State) (b : Byte) : present s (zext16 b) :=
  (s.hasByte_iff _).1 (s.hasByte_of_lt _ (by rw [zext16_toNat]; omega))

theorem State.pointerHighAddress_eq (s : State) (p : Byte) : s.pointerHighAddress p = highByteAddress s p := by
  unfold State.pointerHighAddress highByteAddress
  split
  · exact zext16_add p 1#8
  · rw [zext16_eq_ofNat, BitVec.ofNat_add]

theorem State.readPointer_eq_pointer (s : State) (p : Byte) : s.readPointer p = .ok (pointer s p) := by
  rw [State.readPointer_eq, State.pointerHighAddress_eq, pointer, byteAt, byteAt, zext16_toNat]

theorem State.effectiveAddress_indirectX (s : State) (b : Byte) :
    s.effectiveAddress (.indirectX b) = .ok (pointer s (b + s.x)) :=
  s.readPointer_eq_pointer (b + s.x)

theorem State.effectiveAddress_indirectY (s : State) (b : Byte) :
    s.effectiveAddress (.indirectY b) = .ok (pointer s b + zext16 s.y) := by
  simp only [State.effectiveAddress, State.effectiveAddressAt, State.readPointer_eq_pointer]

/-- The operand byte of LDA and ADC is the byte at the effective address (R94, R116). -/
theorem State.operandByte_of_present {s : State} {o : Operand} {ea : Addr} (hi : ∀ v, o ≠ .immediate v)
    (hea : s.effectiveAddress o = .ok ea) (hp : present s ea) : s.operandByte o = .ok (byteAt s ea) := by
  rw [State.operandByte_eq s o ea hi hea, State.memRead_ok ((s.hasByte_iff ea).2 hp)]

/-! ## What LDA and STA do -/

/-- Writing Z and N flag by flag, as one mask (R22). -/
theorem withFlag_z_n (p : Byte) (z n : Bool) :
    withFlag (withFlag p .z z) .n n =
      (p &&& 0x7D#8) ||| (if z then 0x02#8 else 0x00#8) ||| (if n then 0x80#8 else 0x00#8) := by
  cases z <;> cases n <;> revert p <;> decide

/-- The flag writes of `UpdateZN` leave the status byte of R91. -/
theorem State.updateZN_p (s : State) (v : Byte) : (s.updateZN v).p = znStatus s.p v := by
  have sign : v &&& 0x80#8 = if v.msb then 0x80#8 else 0x00#8 := by revert v; decide
  simp only [State.updateZN_eq, withFlag_z_n, znStatus, sign, beq_iff_eq]

/-- LDA of an operand byte, in whatever mode it was found (R94). -/
theorem exec_lda {i : Instr} {s : State} {m : Byte} (hi : i.mnemonic = .lda) (hm : s.operandByte i.operand = .ok m) :
    exec i s = .next (loaded s m (BitVec.ofNat 16 i.length)) := by
  have he : effect i s = .ok ((s.setA m).updateZN m) := by simp only [effect, hi, hm]
  have hp : ((s.setA m).updateZN m).p = znStatus s.p m := (s.setA m).updateZN_p m
  rw [exec_eq_retire, he, retire_ok, loaded, ← hp]
  rfl

/-- LDA of the byte at its effective address (R94), in every mode but Immediate. -/
theorem exec_lda_at {i : Instr} {s : State} {ea : Addr} (hi : i.mnemonic = .lda)
    (him : ∀ v, i.operand ≠ .immediate v) (hea : s.effectiveAddress i.operand = .ok ea) (hp : present s ea) :
    exec i s = .next (loaded s (byteAt s ea) (BitVec.ofNat 16 i.length)) :=
  exec_lda hi (State.operandByte_of_present him hea hp)

/-- STA to its effective address (R103). -/
theorem exec_sta_at {i : Instr} {s : State} {ea : Addr} (hi : i.mnemonic = .sta)
    (hea : s.effectiveAddress i.operand = .ok ea) (hp : present s ea) :
    exec i s = .next (stored s ea (BitVec.ofNat 16 i.length)) := by
  have he : effect i s = .ok (s.setMem (s.mem.write ea.toNat s.a)) := by
    simp only [effect, hi, hea, State.memWrite_ok s.a ((s.hasByte_iff ea).2 hp)]
  rw [exec_eq_retire, he, retire_ok]
  rfl

theorem byteAt_stored_same (s : State) (ea len : Addr) : byteAt (stored s ea len) ea = s.a :=
  s.mem.read_write_same ea.toNat s.a

end Sys2Proof.Machine

open Sys2Proof Sys2Proof.Machine Sys2Proof.Claims

/-- Settles O13, by the effective address of each form; the page-zero forms need no hypothesis. -/
theorem ldaLoadsTheOperandByte : Obligations.LdaLoadsTheOperandByte := by
  refine fun s => ⟨fun v => ?_, fun b => ?_, fun b => ?_, fun w hp => ?_, fun w hp => ?_, fun w hp => ?_,
    fun b hp => ?_, fun b hp => ?_⟩
  · exact exec_lda (i := .ldaImmediate v) rfl rfl
  · exact exec_lda_at (i := .ldaZeroPage b) rfl nofun rfl (present_zext16 s b)
  · exact exec_lda_at (i := .ldaZeroPageX b) rfl nofun rfl (present_zext16 s (b + s.x))
  · exact exec_lda_at (i := .ldaAbsolute w) rfl nofun rfl hp
  · exact exec_lda_at (i := .ldaAbsoluteX w) rfl nofun rfl hp
  · exact exec_lda_at (i := .ldaAbsoluteY w) rfl nofun rfl hp
  · exact exec_lda_at (i := .ldaIndirectX b) rfl nofun (s.effectiveAddress_indirectX b) hp
  · exact exec_lda_at (i := .ldaIndirectY b) rfl nofun (s.effectiveAddress_indirectY b) hp

/-- Settles O14, by the effective address of each form; the read back is the read after write of memory. -/
theorem staStoresTheAccumulator : Obligations.StaStoresTheAccumulator := by
  refine fun s => ⟨fun b => ?_, fun b => ?_, fun w hp => ?_, fun w hp => ?_, fun w hp => ?_, fun b hp => ?_,
    fun b hp => ?_, fun ea len hp => ?_⟩
  · exact exec_sta_at (i := .staZeroPage b) rfl rfl (present_zext16 s b)
  · exact exec_sta_at (i := .staZeroPageX b) rfl rfl (present_zext16 s (b + s.x))
  · exact exec_sta_at (i := .staAbsolute w) rfl rfl hp
  · exact exec_sta_at (i := .staAbsoluteX w) rfl rfl hp
  · exact exec_sta_at (i := .staAbsoluteY w) rfl rfl hp
  · exact exec_sta_at (i := .staIndirectX b) rfl (s.effectiveAddress_indirectX b) hp
  · exact exec_sta_at (i := .staIndirectY b) rfl (s.effectiveAddress_indirectY b) hp
  · have hp' : present (stored s ea len) ea := hp
    rw [← byteAt_stored_same s ea len]
    exact ⟨State.memRead_ok ((State.hasByte_iff _ ea).2 hp'), exec_lda_at (i := .ldaAbsolute ea) rfl nofun rfl hp'⟩
end

section
/-! The family 42_register.md: TAX (R112), INX (R113), the step of an instruction of one byte, and Y, which nothing writes
(R115). -/

namespace Sys2Proof.Machine

open Sys2Proof.Claims

/-! ## Y is never a destination -/

theorem effect_y {i : Instr} {s u : State} (h : effect i s = .ok u) : u.y = s.y := by
  obtain ⟨-, m, -, rfl⟩ | ⟨-, ea, -, -, rfl⟩ | ⟨-, m, -, rfl⟩ | ⟨-, rfl⟩ | ⟨-, rfl⟩ | ⟨-, rfl⟩ :=
    effect_ok_cases h <;> rfl

theorem exec_y {i : Instr} {s t : State} (h : exec i s = .next t) : t.y = s.y := by
  obtain ⟨u, hu, rfl⟩ | ⟨c, -, rfl⟩ := exec_cases h
  · rw [State.advancePc_y, effect_y hu]
  · rw [State.raise_y]

theorem step_y {s t : State} (h : step s = .next t) : t.y = s.y := by
  obtain ⟨-, ⟨i, -, he⟩ | ⟨r, -, rfl⟩⟩ := step_cases h
  · exact exec_y he
  · rw [State.raise_y]

/-! ## What TAX and INX do -/

theorem State.writeX_eq (s : State) (v : Byte) : s.writeX v = { s with x := v, p := znStatus s.p v } := by
  have status : (s.writeX v).p = znStatus s.p v := (s.setX v).updateZN_p v
  rw [← status]
  rfl

/-- An instruction of one byte whose effect is to write X (R112, R113). -/
theorem exec_writeX {i : Instr} {s : State} {v : Byte} (he : effect i s = .ok (s.writeX v)) (hl : i.length = 1) :
    exec i s = .next { s with x := v, p := znStatus s.p v, pc := s.pc + 1#16 } := by
  rw [exec_eq_retire, he, retire_ok, hl, State.writeX_eq]
  rfl

/-- The increment of INX is modulo 256 (R113). -/
theorem byte_add_one (b : Byte) : b + 1#8 = BitVec.ofNat 8 ((b.toNat + 1) % 256) := by
  apply BitVec.eq_of_toNat_eq
  simp [BitVec.toNat_add]

/-! ## The step of an instruction of one byte, and of no byte at all -/

/-- An instruction without operand is fetched from its opcode byte alone (R54, R69). -/
theorem State.fetch_of_noneAddressing {i : Instr} {s : State} (ho : i.operand = .noneAddressing) (hp : present s s.pc)
    (hop : byteAt s s.pc = i.opcode) : s.fetch = .ok i := by
  have read : s.memRead s.pc = .ok i.opcode := by rw [State.memRead_ok ((s.hasByte_iff _).2 hp), ← hop]
  cases i with
  | tax | inx | brk =>
    rw [State.fetch, read]
    rfl
  | _ => cases ho

theorem step_of_noneAddressing {i : Instr} {s : State} (ho : i.operand = .noneAddressing) (hr : s.runState = .running)
    (hp : present s s.pc) (hop : byteAt s s.pc = i.opcode) : step s = exec i s := by
  rw [step_running hr, State.fetch_of_noneAddressing ho hp hop]

/-- The fetch of an opcode byte that is not there is a fault without opcode byte (R132, R138). -/
theorem step_of_missing_opcode {s : State} (hr : s.runState = .running) (hp : ¬ present s s.pc) :
    step s = .next (faultedWith s (.memoryFault s.pc none s.pc)) := by
  have missing : s.hasByte s.pc = false := Bool.eq_false_iff.2 (mt (s.hasByte_iff _).1 hp)
  have fetched : s.fetch = .error (.memoryFault s.pc none s.pc) := by rw [State.fetch, State.memRead_error missing]
  rw [step_running hr, fetched]
  rfl

end Sys2Proof.Machine

open Sys2Proof Sys2Proof.Machine

/-- Settles O23: no effect writes Y, and advancing PC and taking a fault do not either. -/
theorem noInstructionWritesY : Obligations.NoInstructionWritesY :=
  ⟨fun _ _ _ => exec_y, fun _ _ => step_y⟩

/-- Settles O18: TAX writes A to X, and is fetched from its one byte. -/
theorem taxCopiesAToX : Obligations.TaxCopiesAToX :=
  ⟨rfl, fun _ => ⟨exec_writeX rfl rfl, step_of_noneAddressing (i := .tax) rfl, step_of_missing_opcode⟩⟩

/-- Settles O19: INX writes X + 1 modulo 256 to X, and is fetched from its one byte. -/
theorem inxIncrementsX : Obligations.InxIncrementsX := by
  refine ⟨rfl, fun s => ⟨?_, step_of_noneAddressing (i := .inx) rfl, step_of_missing_opcode⟩⟩
  rw [← byte_add_one]
  exact exec_writeX rfl rfl
end

section
/-! The family 43_arithmetic.md: ADC (R116 to R119) in every form, from the operand byte of the form and the agreement of the
model's sum, carry and overflow with the spec's exact sums. -/

namespace Sys2Proof.Machine

open Sys2Proof.Claims

/-! ## The sums, carry and overflow of ADC -/

/-- The carry-in of R116 is the flag C. -/
theorem State.carryIn_eq (s : State) : carryIn s.p = (s.flag .c).toNat := by
  rw [State.flag_c]
  unfold carryIn
  generalize s.p = p
  revert p
  decide

theorem State.unsignedSum_eq (s : State) (m : Byte) : unsignedSum s.p s.a m = adcSum s.a m (s.flag .c) := by
  rw [unsignedSum, s.carryIn_eq, adcSum]

theorem State.signedSum_eq (s : State) (m : Byte) : signedSum s.p s.a m = s8 s.a + s8 m + ((s.flag .c).toNat : Int) := by
  rw [signedSum, s.carryIn_eq]

/-- Taking a byte of the exact sum is the reduction modulo 256 of R119. -/
theorem State.sumByte_eq (s : State) (m : Byte) : sumByte s.p s.a m = adcResult s.a m (s.flag .c) := by
  rw [sumByte, s.unsignedSum_eq, adcResult]
  apply BitVec.eq_of_toNat_eq
  simp

/-- R118 in sign bits: A and m agree in theirs, and the result differs from both. -/
theorem adcOverflow_iff_msb (a m : Byte) (c : Bool) :
    adcOverflow a m c = true ↔ a.msb ≠ (adcResult a m c).msb ∧ m.msb ≠ (adcResult a m c).msb := by
  simp [adcOverflow]

/-- R118: the sign bits say that the exact signed sum lies outside -128..127. -/
theorem adcOverflow_iff (a m : Byte) (c : Bool) :
    adcOverflow a m c = true ↔ s8 a + s8 m + (c.toNat : Int) < -128 ∨ 127 < s8 a + s8 m + (c.toNat : Int) := by
  have carry : c.toNat ≤ 1 := Bool.toNat_le c
  have := a.isLt
  have := m.isLt
  simp only [adcOverflow_iff_msb, ne_eq, BitVec.msb_eq_decide, decide_eq_decide, adcResult, adcSum,
    BitVec.toNat_ofNat, s8]
  split <;> split <;> omega

/-! ## What ADC does -/

/-- Writing C and V, in the bits that Z and N leave (R22). -/
theorem withFlag_c_v (p : Byte) (c v : Bool) :
    withFlag (withFlag p .c c) .v v &&& 0x7D#8 =
      (p &&& 0x3C#8) ||| (if c then 0x01#8 else 0x00#8) ||| (if v then 0x40#8 else 0x00#8) := by
  cases c <;> cases v <;> revert p <;> decide

/-- The flag writes of ADC leave the status byte of R116 to R119. -/
theorem State.addWithCarry_p_eq (s : State) (m : Byte) : (s.addWithCarry m).p = adcStatus s.p s.a m := by
  have status : (s.addWithCarry m).p =
      znStatus (withFlag (withFlag s.p .c (adcCarry s.a m (s.flag .c))) .v (adcOverflow s.a m (s.flag .c)))
        (adcResult s.a m (s.flag .c)) := State.updateZN_p _ _
  rw [status, znStatus, withFlag_c_v, adcStatus, s.unsignedSum_eq, s.signedSum_eq, s.sumByte_eq]
  simp only [adcOverflow_iff, adcCarry, decide_eq_true_eq]
  ac_rfl

/-- ADC of an operand byte, in whatever mode it was found (R116). -/
theorem exec_adc {i : Instr} {s : State} {m : Byte} (hi : i.mnemonic = .adc) (hm : s.operandByte i.operand = .ok m) :
    exec i s = .next (summed s m (BitVec.ofNat 16 i.length)) := by
  have he : effect i s = .ok (s.addWithCarry m) := by simp only [effect, hi, hm]
  rw [exec_eq_retire, he, retire_ok, summed, s.sumByte_eq, ← s.addWithCarry_p_eq]
  rfl

/-- ADC of the byte at its effective address (R116), in every mode but Immediate. -/
theorem exec_adc_at {i : Instr} {s : State} {ea : Addr} (hi : i.mnemonic = .adc)
    (him : ∀ v, i.operand ≠ .immediate v) (hea : s.effectiveAddress i.operand = .ok ea) (hp : present s ea) :
    exec i s = .next (summed s (byteAt s ea) (BitVec.ofNat 16 i.length)) :=
  exec_adc hi (State.operandByte_of_present him hea hp)

end Sys2Proof.Machine

open Sys2Proof Sys2Proof.Machine

/-- Settles O16, by the effective address of each form; the page-zero forms need no hypothesis. -/
theorem adcAddsWithCarry : Obligations.AdcAddsWithCarry := by
  refine fun s => ⟨fun v => ?_, fun b => ?_, fun b => ?_, fun w hp => ?_, fun w hp => ?_, fun w hp => ?_,
    fun b hp => ?_, fun b hp => ?_⟩
  · exact exec_adc (i := .adcImmediate v) rfl rfl
  · exact exec_adc_at (i := .adcZeroPage b) rfl nofun rfl (present_zext16 s b)
  · exact exec_adc_at (i := .adcZeroPageX b) rfl nofun rfl (present_zext16 s (b + s.x))
  · exact exec_adc_at (i := .adcAbsolute w) rfl nofun rfl hp
  · exact exec_adc_at (i := .adcAbsoluteX w) rfl nofun rfl hp
  · exact exec_adc_at (i := .adcAbsoluteY w) rfl nofun rfl hp
  · exact exec_adc_at (i := .adcIndirectX b) rfl nofun (s.effectiveAddress_indirectX b) hp
  · exact exec_adc_at (i := .adcIndirectY b) rfl nofun (s.effectiveAddress_indirectY b) hp
end

section
/-! The family 44_halt.md: BRK (R129), which alone comes to Halted. -/

namespace Sys2Proof.Machine

/-- The whole of BRK (R129): nothing but PC and the run state changes. -/
theorem exec_brk (s : State) : exec .brk s = .next { s with pc := s.pc + 1#16, runState := .halted } := by
  rw [exec_eq_retire]
  rfl

/-- Only BRK comes to Halted from another run state: a fault ends in Faulted, and the other effects keep the run state. -/
theorem eq_brk_of_exec_halted {i : Instr} {s t : State} (hs : s.runState ≠ .halted) (h : exec i s = .next t)
    (ht : t.runState = .halted) : i = .brk := by
  obtain ⟨u, hu, rfl⟩ | ⟨c, -, rfl⟩ := exec_cases h
  · obtain ⟨-, kept⟩ | ⟨hi, -⟩ := effect_runState_of_form hu
    · exact absurd (kept.symm.trans ht) hs
    · exact hi
  · cases ht

end Sys2Proof.Machine

open Sys2Proof Sys2Proof.Machine

/-- Settles O20: BRK is fetched from its one byte and halts, and the run state at the end of an instruction says which it
was. -/
theorem brkHalts : Obligations.BrkHalts := by
  refine ⟨rfl, fun s => ⟨exec_brk s, fun hr hp hop => ?_, step_of_missing_opcode, fun hh => ?_, fun hr i t => ?_⟩⟩
  · rw [step_of_noneAddressing (i := .brk) rfl hr hp hop, exec_brk]
  · exact (stepIsDefinedExactlyInRunning s).2 (by rw [hh]; nofun)
  · exact eq_brk_of_exec_halted (by rw [hr]; nofun)
end

section
/-! The family 70_reset_and_hazards.md: load (R156, R158), its two answers, and the memory it leaves. -/

namespace Sys2Proof.Machine

/-! ## A word written to memory -/

/-- Write16 (R40) where both bytes are there: two byte writes, the low byte first. -/
theorem State.write16_ok {s : State} {a : Addr} (w : Addr) (h : s.hasByte a = true) (h' : s.hasByte (a + 1#16) = true) :
    s.write16 a w = .ok (s.setMem ((s.mem.write a.toNat (loByte w)).write (a + 1#16).toNat (hiByte w))) := by
  simp only [State.write16, State.memWrite_ok _ h]
  exact State.memWrite_ok (s := s.setMem _) (hiByte w) h'

/-! ## The two answers of load -/

/-- The memory after load (R156): the program from LOAD_BASE on, and over it the reset vector. -/
def State.memAfterLoad (s : State) (program : List Byte) : Memory :=
  ((s.mem.writeBytes s.params.loadBase.toNat program).write Control.resetVector.toNat (loByte s.params.loadBase)).write
    (Control.resetVector + 1#16).toNat (hiByte s.params.loadBase)

theorem Control.whenNotRunning_of_ne {α : Type} {s : State} (h : s.runState ≠ .running)
    (act : Except Control.HostError α) : Control.whenNotRunning s act = act := by
  unfold Control.whenNotRunning
  split
  · exact absurd ‹_› h
  all_goals rfl

theorem Control.load_tooLong {s : State} {program : List Byte} (hr : s.runState ≠ .running)
    (hlen : s.params.memSize.bytes < s.params.loadBase.toNat + program.length) :
    Control.load program s = .error .loadBoundsError := by
  rw [Control.load, Control.whenNotRunning_of_ne hr, if_neg (Nat.not_le.2 hlen)]

/-- The reset vector lies below 0xFFFF, so a program that fits is loaded in both memory sizes. -/
theorem Control.load_fits {s : State} {program : List Byte} (hr : s.runState ≠ .running)
    (hlen : s.params.loadBase.toNat + program.length ≤ s.params.memSize.bytes) :
    Control.load program s = .ok (s.setMem (s.memAfterLoad program)) := by
  rw [Control.load, Control.whenNotRunning_of_ne hr, if_pos hlen,
    State.write16_ok _ (State.hasByte_of_lt _ _ (by decide)) (State.hasByte_of_lt _ _ (by decide))]
  rfl

/-! ## The bytes of the memory load leaves -/

theorem State.memAfterLoad_read_vectorLow (s : State) (program : List Byte) :
    (s.memAfterLoad program).read Control.resetVector.toNat = loByte s.params.loadBase := by
  rw [State.memAfterLoad, Memory.read_write_other _ _ (by decide), Memory.read_write_same]

theorem State.memAfterLoad_read_vectorHigh (s : State) (program : List Byte) :
    (s.memAfterLoad program).read (Control.resetVector + 1#16).toNat = hiByte s.params.loadBase :=
  Memory.read_write_same _ _ _

theorem State.memAfterLoad_read_other (s : State) (program : List Byte) {a : Addr} (hlo : a ≠ Control.resetVector)
    (hhi : a ≠ Control.resetVector + 1#16) :
    (s.memAfterLoad program).read a.toNat =
      if s.params.loadBase.toNat ≤ a.toNat ∧ a.toNat < s.params.loadBase.toNat + program.length
      then program.getD (a.toNat - s.params.loadBase.toNat) 0x00#8 else s.mem.read a.toNat := by
  rw [State.memAfterLoad, Memory.read_write_other _ _ (mt BitVec.eq_of_toNat_eq hhi),
    Memory.read_write_other _ _ (mt BitVec.eq_of_toNat_eq hlo), Memory.read_writeBytes]

end Sys2Proof.Machine

open Sys2Proof Sys2Proof.Machine

/-- Settles O44, by the bytes of the memory that a load which fits leaves. -/
theorem loadPlacesProgramAndVector : Obligations.LoadPlacesProgramAndVector := by
  refine fun s program hr => ⟨Control.load_tooLong hr, fun hlen => ⟨_, Control.load_fits hr hlen, rfl, ?_, ?_, ?_⟩⟩
  · exact s.memAfterLoad_read_vectorLow program
  · exact s.memAfterLoad_read_vectorHigh program
  · exact fun _ hlo hhi => s.memAfterLoad_read_other program hlo hhi
end

section
/-! The invariant (10_state.md R22, 20_memory.md R35): what a step writes keeps it. -/

namespace Sys2Proof.Machine

/-! ## The invariant of a state and its parts -/

/-- The invariant speaks of memory, the parameters and status bits 2 to 5 alone. -/
theorem State.Inv.congr {s t : State} (h : s.Inv) (hm : t.mem = s.mem) (hq : t.params = s.params)
    (hp : t.p &&& 0x3C#8 = s.p &&& 0x3C#8) : t.Inv := by
  simpa only [State.Inv, hm, hq, hp] using h

/-- A byte written where there is one keeps the invariant. -/
theorem State.Inv.write {s : State} (h : s.Inv) {a : Addr} (ha : s.hasByte a = true) (v : Byte) :
    (s.setMem (s.mem.write a.toNat v)).Inv := by
  obtain ⟨hwf, hin, hp⟩ := h
  exact ⟨Memory.wf_write _ _ _ hwf, Memory.within_write _ _ _ _ (by simpa [State.hasByte] using ha) hin, hp⟩

/-! ## Steps keep the invariant -/

/-- Every mnemonic keeps status bits 2 to 5: no rule of R29 names them. -/
theorem effect_keeps_reservedBits {i : Instr} {s u : State} (h : effect i s = .ok u) :
    u.p &&& 0x3C#8 = s.p &&& 0x3C#8 := by
  have reserved : unnamedBits i.mnemonic &&& 0x3C#8 = 0x3C#8 := by cases i.mnemonic <;> rfl
  rw [← reserved, ← BitVec.and_assoc, ← BitVec.and_assoc, effect_keeps_unnamedBits h]

theorem effect_inv {i : Instr} {s u : State} (h : effect i s = .ok u) (hs : s.Inv) : u.Inv := by
  have reserved := effect_keeps_reservedBits h
  obtain ⟨-, m, -, rfl⟩ | ⟨-, ea, -, hea, rfl⟩ | ⟨-, m, -, rfl⟩ | ⟨-, rfl⟩ | ⟨-, rfl⟩ | ⟨-, rfl⟩ :=
    effect_ok_cases h
  case inr.inl => exact hs.write hea s.a
  all_goals exact hs.congr rfl rfl reserved

theorem State.Inv.raise {s : State} (h : s.Inv) (r : FaultRecord) : (s.raise r).Inv := h.congr rfl rfl rfl

theorem step_inv {s t : State} (hs : s.Inv) (h : step s = .next t) : t.Inv := by
  obtain ⟨-, ⟨i, -, he⟩ | ⟨r, -, rfl⟩⟩ := step_cases h
  · obtain ⟨u, hu, rfl⟩ | ⟨c, -, rfl⟩ := exec_cases he
    · exact (effect_inv hu hs).congr rfl rfl rfl
    · exact hs.raise _
  · exact hs.raise r

end Sys2Proof.Machine

open Sys2Proof Sys2Proof.Machine

/-- Settles O5: an effect writes status bits 0, 1, 6 and 7 only, and memory only where there is a byte; a fault writes
neither. -/
theorem everyStepKeepsTheInvariant : Obligations.EveryStepKeepsTheInvariant :=
  fun _ _ => step_inv
end

section
/-! Decoding and encoding (30_encoding.md R53 to R55, R72): the opcode bytes, the operand bytes, and the two round trips. -/

namespace Sys2Proof

open Laws.OpcodeInTable in
/-- The table has the row of every form. -/
theorem lookup_opcode (i : Instr) :
    ∃ d, lookup i.opcode = some d ∧ d.mnemonic = i.mnemonic ∧ d.mode = i.mode ∧ d.length = i.length := by
  cases i
  exacts [brk, adcIndirectX _, adcZeroPage _, adcImmediate _, adcAbsolute _, adcIndirectY _, adcZeroPageX _,
    adcAbsoluteY _, adcAbsoluteX _, staIndirectX _, staZeroPage _, staAbsolute _, staIndirectY _, staZeroPageX _,
    staAbsoluteY _, staAbsoluteX _, ldaIndirectX _, ldaZeroPage _, ldaImmediate _, tax, ldaAbsolute _, ldaIndirectY _,
    ldaZeroPageX _, ldaAbsoluteY _, ldaAbsoluteX _, inx]

/-- Every form is one that R73 admits. -/
theorem Instr.wf_eq_true (i : Instr) : i.wf = true := by
  cases i <;> rfl

/-- The operand is read back from its bytes; a word stands low byte first (R42). -/
theorem operandOf_bytes (o : Operand) (rest : List Byte) : operandOf o.mode (o.bytes ++ rest) = some (o, rest) := by
  cases o with
  | absolute w | absoluteX w | absoluteY w =>
    simp only [Operand.mode, Operand.bytes, List.cons_append, List.nil_append, operandOf, Machine.hiLo_bytes]
  | _ => rfl

/-- A form is told by its mnemonic and its operand. -/
theorem formOf_operand (i : Instr) : formOf i.mnemonic i.operand = some i := by
  cases i <;> rfl

theorem Operand.bytes_length (o : Operand) : o.bytes.length = o.mode.operandBytes := by
  cases o <;> rfl

theorem encode_length (i : Instr) : (encode i).length = i.length := by
  rw [encode, List.length_cons, Operand.bytes_length, Instr.length, Instr.mode, Nat.add_comm]

theorem Instr.length_le (i : Instr) : i.length ≤ 3 := by
  rw [Instr.length]
  cases i.mode <;> decide

theorem decode_encode (i : Instr) (rest : List Byte) : decode (encode i ++ rest) = .ok (i, rest) := by
  obtain ⟨d, hd, hmn, hmo, -⟩ := lookup_opcode i
  simp only [encode, List.cons_append, decode, hd, hmo, Instr.mode, operandOf_bytes, hmn, formOf_operand]

/-- The inversion of `decode`: the row of the first byte has a form whatever operand bytes follow, and that form is what
was decoded. -/
theorem decode_eq_ok {bytes : List Byte} {i : Instr} {rest : List Byte} (h : decode bytes = .ok (i, rest)) :
    bytes = encode i ++ rest := by
  cases bytes with
  | nil => cases h
  | cons op tail =>
    cases hl : lookup op with
    | none => simp [decode, hl] at h
    | some d =>
      have form := Machine.row_form hl tail
      cases ho : operandOf d.mode tail with
      | none => simp [decode, hl, ho] at h
      | some r =>
        obtain ⟨o, after⟩ := r
        rw [ho] at form
        obtain ⟨j, hj, rfl, rfl, -, -, rfl⟩ := form
        simp only [decode, hl, ho, hj, Except.ok.injEq, Prod.mk.injEq] at h
        obtain ⟨rfl, rfl⟩ := h
        rfl

/-- The 26 opcode bytes are the bytes of the table's rows. -/
theorem lookup_eq_none_iff (op : Byte) : lookup op = none ↔ op ∉ Claims.opcodeBytes := by
  have rows : Claims.opcodeBytes = opcodeTable.map Descriptor.byte := rfl
  simp only [lookup, List.find?_eq_none, beq_iff_eq, rows, List.mem_map, not_exists, not_and]

end Sys2Proof

open Sys2Proof

/-- Settles O8, by the row of the form's opcode byte and the reading back of its operand bytes. -/
theorem decodeOfEncodeIsTheInstruction : Obligations.DecodeOfEncodeIsTheInstruction :=
  fun i rest => ⟨i.wf_eq_true, decode_encode i rest⟩

/-- Settles O9, by the form that each row of the table has. -/
theorem encodeOfDecodeIsTheBytes : Obligations.EncodeOfDecodeIsTheBytes :=
  fun _ i _ h => ⟨decode_eq_ok h, encode_length i⟩

/-- Settles O11, by evaluating the decoder on each of the eight words. -/
theorem wordsOfTheSpecDecode : Obligations.WordsOfTheSpecDecode := by
  unfold Obligations.WordsOfTheSpecDecode
  decide

/-- Settles O12, by going through the 26 rows. -/
theorem opcodeTableIsValid : Obligations.OpcodeTableIsValid := by
  unfold Obligations.OpcodeTableIsValid
  decide
end

section
/-! Memory and its words (20_memory.md R36 to R42). -/

namespace Sys2Proof.Machine

open Sys2Proof.Claims

theorem hasByte_eq_false_iff (s : State) (a : Addr) : s.hasByte a = false ↔ ¬ present s a := by
  rw [← Bool.not_eq_true, s.hasByte_iff a]

/-! ## The canonical form tells memories apart -/

theorem Memory.read_head (k : Nat) (v : Byte) (t : Memory) : Memory.read ((k, v) :: t) k = v := by
  rw [Memory.read_cons, if_pos rfl]

theorem Memory.wfFrom_cons (lo k : Nat) (v : Byte) (t : Memory) :
    Memory.wfFrom lo ((k, v) :: t) = true ↔ lo ≤ k ∧ v ≠ 0x00#8 ∧ Memory.wfFrom (k + 1) t = true := by
  simp only [Memory.wfFrom, Bool.and_eq_true, decide_eq_true_eq, bne_iff_ne, and_assoc]

/-- The first cell of a canonical memory is at the lowest address that reads a byte other than 0x00. -/
theorem Memory.read_before_head {lo k : Nat} {v : Byte} {t : Memory} (h : Memory.wfFrom lo ((k, v) :: t) = true)
    {a : Nat} (ha : a < k) : Memory.read ((k, v) :: t) a = 0x00#8 := by
  obtain ⟨-, hv, ht⟩ := (Memory.wfFrom_cons lo k v t).1 h
  exact Memory.read_of_lt _ k a ((Memory.wfFrom_cons k k v t).2 ⟨Nat.le_refl k, hv, ht⟩) ha

/-- Two canonical memories that read alike list the same cells: neither can have its first cell before the other's, and
behind equal first cells they read alike again. -/
theorem Memory.eq_of_wfFrom (m : Memory) : ∀ (lo : Nat) (m' : Memory), Memory.wfFrom lo m = true →
    Memory.wfFrom lo m' = true → (∀ a : Nat, m.read a = m'.read a) → m = m' := by
  induction m with
  | nil =>
    intro lo m' _ hm' hread
    cases m' with
    | nil => rfl
    | cons c t =>
      obtain ⟨k, v⟩ := c
      obtain ⟨-, hv, -⟩ := (Memory.wfFrom_cons lo k v t).1 hm'
      exact absurd ((Memory.read_head k v t).symm.trans (hread k).symm) hv
  | cons c t ih =>
    obtain ⟨k, v⟩ := c
    intro lo m' hm hm' hread
    obtain ⟨-, hv, ht⟩ := (Memory.wfFrom_cons lo k v t).1 hm
    cases m' with
    | nil => exact absurd ((Memory.read_head k v t).symm.trans (hread k)) hv
    | cons c' t' =>
      obtain ⟨k', v'⟩ := c'
      obtain ⟨-, hv', ht'⟩ := (Memory.wfFrom_cons lo k' v' t').1 hm'
      have head := (Memory.read_head k v t).symm.trans (hread k)
      have head' := (Memory.read_head k' v' t').symm.trans (hread k').symm
      obtain hlt | rfl | hlt := Nat.lt_trichotomy k k'
      · exact absurd (head.trans (Memory.read_before_head hm' hlt)) hv
      · obtain rfl : v = v' := head.trans (Memory.read_head k v' t')
        rw [ih (k + 1) t' ht ht' fun a => ?_]
        by_cases ha : a < k + 1
        · rw [Memory.read_of_lt t _ a ht ha, Memory.read_of_lt t' _ a ht' ha]
        · have behind : k ≠ a := by omega
          simpa only [Memory.read_cons, if_neg behind] using hread a
      · exact absurd (head'.trans (Memory.read_before_head hm hlt)) hv'

/-! ## Words -/

theorem addr_add_one_ne (a : Addr) : a + 1#16 ≠ a := by
  bv_omega

/-- What Read16 gives after Write16 at the same address, across 0xFFFF too (R39, R40). -/
theorem State.bytes_of_write16 (s : State) (a w : Addr) :
    byteAt (s.setMem ((s.mem.write a.toNat (loByte w)).write (a + 1#16).toNat (hiByte w))) a = loByte w ∧
    byteAt (s.setMem ((s.mem.write a.toNat (loByte w)).write (a + 1#16).toNat (hiByte w))) (a + 1#16) = hiByte w := by
  have apart : a.toNat ≠ (a + 1#16).toNat := fun h => addr_add_one_ne a (BitVec.eq_of_toNat_eq h).symm
  simp only [byteAt, State.setMem_mem, Memory.read_write_same, Memory.read_write_other _ _ apart, and_self]

end Sys2Proof.Machine

open Sys2Proof Sys2Proof.Machine

/-- Settles O38: reading after a write, and the one fault of both accesses. -/
theorem memoryReadsWhatWasWritten : Obligations.MemoryReadsWhatWasWritten := by
  refine fun s a v => ⟨fun hp => ?_, fun hp => ?_⟩
  · have ha := (s.hasByte_iff a).2 hp
    refine ⟨_, State.memWrite_ok v ha, ?_, fun b hb => ?_, rfl⟩
    · rw [State.memRead_ok (by exact ha), State.setMem_mem, Memory.read_write_same]
    · have apart : b.toNat ≠ a.toNat := mt BitVec.eq_of_toNat_eq hb
      simp only [State.memRead, State.hasByte_setMem, State.setMem_mem, Memory.read_write_other _ _ apart]
  · have ha := (hasByte_eq_false_iff s a).2 hp
    exact ⟨State.memWrite_error v ha, State.memRead_error ha⟩

/-- Settles O39: canonical memories that read alike agree cell by cell, and a write keeps the form. -/
theorem canonicalMemoriesAreEqualData : Obligations.CanonicalMemoriesAreEqualData :=
  ⟨fun m m' => m.eq_of_wfFrom 0 m', Memory.wf_write, rfl⟩

/-- Settles O40, by the two bytes a word write stores and the joining of a word's own bytes. -/
theorem wordsAreLittleEndian : Obligations.WordsAreLittleEndian := by
  intro s a w hlo hhi
  have ha := (s.hasByte_iff a).2 hlo
  have ha' := (s.hasByte_iff _).2 hhi
  obtain ⟨low, high⟩ := s.bytes_of_write16 a w
  refine ⟨State.read16_ok ha ha', _, State.write16_ok w ha ha', ?_, low, high⟩
  rw [State.read16_ok (by exact ha) (by exact ha')]
  exact congrArg Except.ok ((congrArg₂ hiLo high low).trans (hiLo_bytes w))
end

section
/-! The control surface (70_reset_and_hazards.md R149 to R171): reset, the start of run, runs under a budget, and the
states a host can bring a core into (10_state.md R19). -/

namespace Sys2Proof.Machine

open Sys2Proof.Claims

/-! ## The host operations, each from an accepting state -/

theorem Control.whenNotRunning_running {α : Type} {s : State} (h : s.runState = .running)
    (act : Except Control.HostError α) : Control.whenNotRunning s act = .error .notAccepted := by
  rw [Control.whenNotRunning, h]

/-- An operation that succeeds was performed outside Running. -/
theorem Control.whenNotRunning_eq_ok {α : Type} {s : State} {act : Except Control.HostError α} {v : α}
    (h : Control.whenNotRunning s act = .ok v) : s.runState ≠ .running ∧ act = .ok v := by
  by_cases hr : s.runState = .running
  · rw [Control.whenNotRunning_running hr] at h
    cases h
  · rw [Control.whenNotRunning_of_ne hr] at h
    exact ⟨hr, h⟩

/-- The state reset comes to (R151 to R153): registers by the parameters, PC from the vector. -/
def State.afterReset (s : State) : State :=
  { s with
    a := 0x00#8
    x := 0x00#8
    y := if s.params.resetZeroY then 0x00#8 else s.y
    p := if s.params.resetZeroCV then 0x00#8 else s.p &&& 0x41#8
    pc := hiLo (byteAt s 0xFFFD#16) (byteAt s 0xFFFC#16)
    runState := .stopped }

/-- With the spec's parameters reset zeroes Y and all of P (decisions D3, D4). -/
theorem State.afterReset_of_specParams {s : State} (h : s.params = Config.specParams) :
    s.afterReset = { s with
      a := 0x00#8
      x := 0x00#8
      y := 0x00#8
      p := 0x00#8
      pc := s.afterReset.pc
      runState := .stopped } := by
  simp only [State.afterReset, h, Config.specParams, ↓reduceIte]

/-- The vector lies below 0xFFFF, so reset succeeds in both memory sizes. -/
theorem Control.reset_eq {s : State} (h : s.runState ≠ .running) : Control.reset s = .ok s.afterReset := by
  rw [Control.reset, Control.whenNotRunning_of_ne h,
    State.read16_ok (s.hasByte_of_lt _ (by decide)) (s.hasByte_of_lt _ (by decide))]
  rfl

theorem Control.load_eq_ok {s t : State} {program : List Byte} (h : Control.load program s = .ok t) :
    s.params.loadBase.toNat + program.length ≤ s.params.memSize.bytes ∧ t = s.setMem (s.memAfterLoad program) := by
  have hr := (Control.whenNotRunning_eq_ok h).1
  by_cases hlen : s.params.loadBase.toNat + program.length ≤ s.params.memSize.bytes
  · rw [Control.load_fits hr hlen] at h
    exact ⟨hlen, (Except.ok.inj h).symm⟩
  · rw [Control.load_tooLong hr (Nat.lt_of_not_le hlen)] at h
    cases h

theorem Control.poke_of_present {s : State} {a : Addr} (v : Byte) (hr : s.runState ≠ .running)
    (ha : s.hasByte a = true) : Control.poke a v s = .ok (s.setMem (s.mem.write a.toNat v)) := by
  rw [Control.poke, Control.whenNotRunning_of_ne hr, State.memWrite_ok v ha]
  rfl

theorem Control.poke_of_missing {s : State} {a : Addr} (v : Byte) (hr : s.runState ≠ .running)
    (ha : s.hasByte a = false) : Control.poke a v s = .error (.memoryFault a) := by
  rw [Control.poke, Control.whenNotRunning_of_ne hr, State.memWrite_error v ha]
  rfl

theorem Control.poke_eq_ok {s t : State} {a : Addr} {v : Byte} (h : Control.poke a v s = .ok t) :
    s.hasByte a = true ∧ t = s.setMem (s.mem.write a.toNat v) := by
  have hr := (Control.whenNotRunning_eq_ok h).1
  cases ha : s.hasByte a with
  | false =>
    rw [Control.poke_of_missing v hr ha] at h
    cases h
  | true =>
    rw [Control.poke_of_present v hr ha] at h
    exact ⟨rfl, (Except.ok.inj h).symm⟩

theorem Control.beginRun_eq_ok {s t : State} (h : Control.beginRun s = .ok t) : ∃ r, t = s.setRunState r := by
  unfold Control.beginRun at h
  split at h
  · cases h
  · exact ⟨_, (Except.ok.inj h).symm⟩
  · exact ⟨_, (Except.ok.inj h).symm⟩
  · exact ⟨s.runState, (Except.ok.inj h).symm⟩

/-! ## The invariant of reachable states -/

theorem State.Inv.memAfterLoad {s : State} (h : s.Inv) {program : List Byte}
    (hlen : s.params.loadBase.toNat + program.length ≤ s.params.memSize.bytes) :
    (s.setMem (s.memAfterLoad program)).Inv := by
  obtain ⟨hwf, hin, hp⟩ := h
  have copied : (s.setMem (s.mem.writeBytes s.params.loadBase.toNat program)).Inv :=
    ⟨Memory.wf_writeBytes _ _ _ hwf, Memory.within_writeBytes _ _ _ _ hlen hin, hp⟩
  exact (copied.write (State.hasByte_of_lt _ Control.resetVector (by decide)) _).write
    (State.hasByte_of_lt _ (Control.resetVector + 1#16) (by decide)) _

theorem State.Inv.afterReset {s : State} (h : s.Inv) : s.afterReset.Inv := by
  have reserved : s.p &&& 0x3C#8 = 0x00#8 := h.2.2
  have status : s.afterReset.p &&& 0x3C#8 = 0x00#8 := by
    have masked (p : Byte) : p &&& 0x41#8 &&& 0x3C#8 = 0x00#8 := by revert p; decide
    simp only [State.afterReset]
    split
    · rfl
    · exact masked s.p
  exact h.congr rfl rfl (status.trans reserved.symm)

/-- Y is zero and the invariant holds at construction, and every operation and step keeps both (R19). -/
theorem Reachable.y_eq_zero_and_inv {s : State} (h : Reachable s) : s.y = 0x00#8 ∧ s.Inv := by
  induction h with
  | construct params => exact ⟨rfl, rfl, rfl, BitVec.zero_and⟩
  | load program _ hload ih =>
    obtain ⟨hlen, rfl⟩ := Control.load_eq_ok hload
    exact ⟨ih.1, ih.2.memAfterLoad hlen⟩
  | @reset s t _ hreset ih =>
    rw [Control.reset_eq (Control.whenNotRunning_eq_ok hreset).1] at hreset
    obtain rfl := Except.ok.inj hreset
    refine ⟨?_, ih.2.afterReset⟩
    simp only [State.afterReset, ih.1, ite_self]
  | beginRun _ hrun ih =>
    obtain ⟨r, rfl⟩ := Control.beginRun_eq_ok hrun
    exact ⟨ih.1, ih.2.congr rfl rfl rfl⟩
  | poke a v _ hpoke ih =>
    obtain ⟨ha, rfl⟩ := Control.poke_eq_ok hpoke
    exact ⟨ih.1, ih.2.write ha v⟩
  | step _ hstep ih => exact ⟨(step_y hstep).trans ih.1, step_inv ih.2 hstep⟩

/-! ## Runs under a budget -/

theorem Control.beginRun_stopped_or_halted {s : State} (h : s.runState = .stopped ∨ s.runState = .halted) :
    Control.beginRun s = .ok (s.setRunState .running) := by
  obtain h | h := h <;> rw [Control.beginRun, h]

theorem Control.run_running {s : State} (h : s.runState = .running) (budget : Nat) :
    Control.run budget s = .error .notAccepted := by
  rw [Control.run, Control.beginRun, h]

theorem Control.runSteps_not_running {s : State} (h : s.runState ≠ .running) (k : Nat) :
    Control.runSteps k s = .ended s := by
  unfold Control.runSteps
  split
  · rfl
  · rfl
  · rfl
  · exact absurd ‹_› h

theorem Control.runSteps_zero {s : State} (h : s.runState = .running) : Control.runSteps 0 s = .notEnded s := by
  unfold Control.runSteps
  rw [h]

theorem Control.runSteps_succ {s t : State} (h : step s = .next t) (k : Nat) :
    Control.runSteps (k + 1) s = Control.runSteps k t := by
  rw [Control.runSteps, (step_cases h).1, h]

/-- A step of a Running core leads to Running, Halted or Faulted, never to Stopped. -/
theorem step_runState {s t : State} (h : step s = .next t) :
    t.runState = .running ∨ t.runState = .halted ∨ ∃ r, t.runState = .faulted r := by
  obtain ⟨i, -, -, ⟨-, hr⟩ | ⟨-, hr⟩⟩ | ⟨r, rfl⟩ := controlFlowIsSequential s t h
  · exact .inl hr
  · exact .inr (.inl hr)
  · exact .inr (.inr ⟨r, rfl⟩)

/-- The end of a run of a Running core is Halted or Faulted, and a larger budget leads to the same end (R90). -/
theorem Control.runSteps_ended (k j : Nat) : ∀ {s t : State}, s.runState = .running → Control.runSteps k s = .ended t →
    Control.runSteps (k + j) s = .ended t ∧ (t.runState = .halted ∨ ∃ r, t.runState = .faulted r) := by
  induction k with
  | zero =>
    intro s t hr h
    rw [Control.runSteps_zero hr] at h
    cases h
  | succ k ih =>
    intro s t hr h
    obtain ⟨u, hu⟩ := step_next_of_running hr
    rw [Control.runSteps_succ hu] at h
    rw [Nat.succ_add, Control.runSteps_succ hu]
    by_cases hur : u.runState = .running
    · exact ih hur h
    · rw [Control.runSteps_not_running hur] at h ⊢
      obtain rfl := Control.RunResult.ended.inj h
      exact ⟨rfl, (step_runState hu).resolve_left hur⟩

/-- A run comes to an end, or uses its budget up while Running; it is never without a step. -/
theorem Control.runSteps_cases (k : Nat) : ∀ s : State, ∃ t, Control.runSteps k s = .ended t ∨
    (Control.runSteps k s = .notEnded t ∧ t.runState = .running) := by
  induction k with
  | zero =>
    intro s
    by_cases hr : s.runState = .running
    · exact ⟨s, .inr ⟨Control.runSteps_zero hr, hr⟩⟩
    · exact ⟨s, .inl (Control.runSteps_not_running hr 0)⟩
  | succ k ih =>
    intro s
    by_cases hr : s.runState = .running
    · obtain ⟨u, hu⟩ := step_next_of_running hr
      rw [Control.runSteps_succ hu]
      exact ih u
    · exact ⟨s, .inl (Control.runSteps_not_running hr _)⟩

end Sys2Proof.Machine

open Sys2Proof Sys2Proof.Machine

/-- Settles O3: the vector is readable in both memory sizes, and the rest is reset's own rule. -/
theorem resetInitialisesRegisters : Obligations.ResetInitialisesRegisters :=
  fun _ => Control.reset_eq

/-- Settles O2: reset of the constructed core, whose empty memory reads 0x00 everywhere (R36). -/
theorem resetStateIsResetOfPowerOn : Obligations.ResetStateIsResetOfPowerOn :=
  ⟨resetInitialisesRegisters _ nofun, fun a => Memory.read_nil a.toNat⟩

/-- Settles O4: the empty memory is canonical and within any size, and P is zero. -/
theorem resetStateMeetsTheInvariant : Obligations.ResetStateMeetsTheInvariant :=
  ⟨rfl, rfl, rfl⟩

/-- Settles O6, by induction on the operations and steps that lead to the state. -/
theorem reachableStatesHaveYZero : Obligations.ReachableStatesHaveYZero :=
  fun _ => Reachable.y_eq_zero_and_inv

/-- Settles O45: load, reset and the start of run one after the other; the vector that load wrote is what reset reads. -/
theorem firstInstructionState : Obligations.FirstInstructionState := by
  intro s program hr hspec hlen
  have fits : s.params.loadBase.toNat + program.length ≤ s.params.memSize.bytes := by
    rw [hspec]
    exact Nat.add_le_add_left hlen 0x8000
  have loaded := Control.load_fits hr fits
  have vector : (s.setMem (s.memAfterLoad program)).afterReset.pc = s.params.loadBase := by
    refine (congrArg₂ hiLo ?_ ?_).trans (hiLo_bytes _)
    · exact s.memAfterLoad_read_vectorHigh program
    · exact s.memAfterLoad_read_vectorLow program
  have reset := Control.reset_eq (s := s.setMem (s.memAfterLoad program)) hr
  have begun := Control.beginRun_stopped_or_halted (s := (s.setMem (s.memAfterLoad program)).afterReset) (.inl rfl)
  refine ⟨_, _, _, loaded, reset, begun, ?_, fun budget => ?_⟩
  · rw [State.afterReset_of_specParams (s := s.setMem (s.memAfterLoad program)) hspec, vector, hspec]
    rfl
  · simp only [Control.loadAndRun, Control.run, loaded, reset, begun]

/-- Settles O46, by the start of run in each run state. -/
theorem runByRunState : Obligations.RunByRunState := by
  refine fun s budget => ⟨fun h => ?_, fun r h => ?_, fun h => ?_⟩
  · rw [Control.run, Control.beginRun_stopped_or_halted h]
    rfl
  · have begun : Control.beginRun s = .ok s := by rw [Control.beginRun, h]
    rw [Control.run, begun]
    exact congrArg Except.ok (Control.runSteps_not_running (by rw [h]; nofun) budget)
  · exact Control.run_running h budget

/-- Settles O47, by induction on the budget: each step of a Running core has a next state, which is not Stopped. -/
theorem runEndsOnlyInHaltedOrFaulted : Obligations.RunEndsOnlyInHaltedOrFaulted := by
  refine ⟨fun k j s t => Control.runSteps_ended k j, fun k s t h => ?_, fun k s t h => ?_⟩
  · obtain ⟨u, hu | ⟨hu, -⟩⟩ := Control.runSteps_cases k s <;> cases hu.symm.trans h
  · obtain ⟨u, hu | ⟨hu, hur⟩⟩ := Control.runSteps_cases k s <;> cases hu.symm.trans h
    exact hur

/-- Settles O48, by the access primitives outside Running and the refusal within it. -/
theorem inspectPeekAndPoke : Obligations.InspectPeekAndPoke := by
  refine fun s a v => ⟨fun hr => ⟨Control.whenNotRunning_of_ne hr _, fun hp => ?_, fun hp => ?_⟩, fun hr => ?_⟩
  · have ha := (s.hasByte_iff a).2 hp
    refine ⟨?_, Control.poke_of_present v hr ha⟩
    rw [Control.peek, Control.whenNotRunning_of_ne hr, State.memRead_ok ha]
    rfl
  · have ha := (hasByte_eq_false_iff s a).2 hp
    refine ⟨?_, Control.poke_of_missing v hr ha⟩
    rw [Control.peek, Control.whenNotRunning_of_ne hr, State.memRead_error ha]
    rfl
  · have refused {α : Type} (act : Except Control.HostError α) := Control.whenNotRunning_running hr act
    refine ⟨refused _, refused _, refused _, refused _, fun program budget => ⟨refused _, ?_, ?_⟩⟩
    · exact Control.run_running hr budget
    · rw [Control.loadAndRun, show Control.load program s = _ from refused _]
end

section
/-! Rules over the instructions: what each may write (10_state.md R16, R17, 20_memory.md R44), the flags C and V after ADC
(43_arithmetic.md R116 to R118), and the data access that misses (60_exceptions.md R136). -/

namespace Sys2Proof.Machine

open Sys2Proof.Claims

/-! ## The frame of an effect -/

theorem effect_params {i : Instr} {s u : State} (h : effect i s = .ok u) : u.params = s.params := by
  obtain ⟨-, m, -, rfl⟩ | ⟨-, ea, -, -, rfl⟩ | ⟨-, m, -, rfl⟩ | ⟨-, rfl⟩ | ⟨-, rfl⟩ | ⟨-, rfl⟩ :=
    effect_ok_cases h <;> rfl

theorem effect_a {i : Instr} {s u : State} (h : effect i s = .ok u) (hl : i.mnemonic ≠ .lda) (ha : i.mnemonic ≠ .adc) :
    u.a = s.a := by
  obtain ⟨hm, m, -, rfl⟩ | ⟨-, ea, -, -, rfl⟩ | ⟨hm, m, -, rfl⟩ | ⟨-, rfl⟩ | ⟨-, rfl⟩ | ⟨-, rfl⟩ := effect_ok_cases h
  case inl => exact absurd hm hl
  case inr.inr.inl => exact absurd hm ha
  all_goals rfl

theorem effect_x {i : Instr} {s u : State} (h : effect i s = .ok u) (ht : i.mnemonic ≠ .tax) (hi : i.mnemonic ≠ .inx) :
    u.x = s.x := by
  obtain ⟨-, m, -, rfl⟩ | ⟨-, ea, -, -, rfl⟩ | ⟨-, m, -, rfl⟩ | ⟨hm, rfl⟩ | ⟨hm, rfl⟩ | ⟨-, rfl⟩ := effect_ok_cases h
  case inr.inr.inr.inl => exact absurd hm ht
  case inr.inr.inr.inr.inl => exact absurd hm hi
  all_goals rfl

theorem effect_mem {i : Instr} {s u : State} (h : effect i s = .ok u) (hs : i.mnemonic ≠ .sta) : u.mem = s.mem := by
  obtain ⟨-, m, -, rfl⟩ | ⟨hm, ea, -, -, rfl⟩ | ⟨-, m, -, rfl⟩ | ⟨-, rfl⟩ | ⟨-, rfl⟩ | ⟨-, rfl⟩ := effect_ok_cases h
  case inr.inl => exact absurd hm hs
  all_goals rfl

theorem byteAt_stored_other (s : State) {ea b : Addr} (len : Addr) (h : b ≠ ea) :
    byteAt (stored s ea len) b = byteAt s b :=
  s.mem.read_write_other s.a (mt BitVec.eq_of_toNat_eq h)

/-! ## The flags after ADC -/

/-- The flag's bit of P by number (the table of R22). -/
def Flag.bit : Flag → Nat
  | .c => 0
  | .z => 1
  | .v => 6
  | .n => 7

theorem State.flag_eq_getLsbD (s : State) (f : Flag) : s.flag f = s.p.getLsbD f.bit := by
  have masked (p : Byte) : (p &&& f.mask != 0x00#8) = p.getLsbD f.bit := by cases f <;> revert p <;> decide
  exact masked s.p

/-- No two flags share a bit. -/
theorem Flag.mask_getLsbD_bit (f g : Flag) : f.mask.getLsbD g.bit = decide (g = f) := by
  cases f <;> cases g <;> rfl

/-- Reading a flag after writing one (R10, R22). -/
theorem State.flag_setFlag (s : State) (f g : Flag) (b : Bool) :
    (s.setFlag f b).flag g = if g = f then b else s.flag g := by
  have within : g.bit < 8 := by cases g <;> decide
  simp only [State.flag_eq_getLsbD, State.setFlag_p, withFlag_getLsbD _ _ _ _ within, Flag.mask_getLsbD_bit,
    decide_eq_true_eq]

theorem State.flag_setA (s : State) (v : Byte) (f : Flag) : (s.setA v).flag f = s.flag f := rfl

/-- `UpdateZN` leaves C and V alone (R91). -/
theorem State.flag_updateZN {s : State} {v : Byte} {f : Flag} (hz : f ≠ .z) (hn : f ≠ .n) :
    (s.updateZN v).flag f = s.flag f := by
  rw [State.updateZN, State.flag_setFlag, if_neg hn, State.flag_setFlag, if_neg hz]

theorem State.addWithCarry_flag_v (s : State) (m : Byte) :
    (s.addWithCarry m).flag .v = adcOverflow s.a m (s.flag .c) := by
  rw [State.addWithCarry, State.flag_updateZN (f := .v) nofun nofun, State.flag_setA, State.flag_setFlag, if_pos rfl]

theorem State.addWithCarry_flag_c (s : State) (m : Byte) : (s.addWithCarry m).flag .c = adcCarry s.a m (s.flag .c) := by
  rw [State.addWithCarry, State.flag_updateZN (f := .c) nofun nofun, State.flag_setA, State.flag_setFlag, if_neg nofun,
    State.flag_setFlag, if_pos rfl]

/-- ADC Immediate as one effect and one advance of PC (R116, R121). -/
theorem exec_adcImmediate (m : Byte) (s : State) : exec (.adcImmediate m) s = .next ((s.addWithCarry m).advancePc 2) := rfl

theorem exec_ldaImmediate (m : Byte) (s : State) :
    exec (.ldaImmediate m) s = .next (((s.setA m).updateZN m).advancePc 2) := rfl

theorem State.flag_advancePc (s : State) (n : Nat) (f : Flag) : (s.advancePc n).flag f = s.flag f := rfl

theorem adcResult_toNat (a m : Byte) (c : Bool) : (adcResult a m c).toNat = adcSum a m c % 256 := by
  rw [adcResult, BitVec.toNat_ofNat]

/-- The carry out is the quotient of the exact sum by 256 (R117). -/
theorem adcCarry_toNat (a m : Byte) (c : Bool) : (adcCarry a m c).toNat = adcSum a m c / 256 := by
  have bound := adcSum_lt a m c
  by_cases h : 255 < adcSum a m c
  · rw [adcCarry, decide_eq_true h, Bool.toNat_true]
    omega
  · rw [adcCarry, decide_eq_false h, Bool.toNat_false]
    omega

theorem word_toNat (w : Addr) : w.toNat = (hiByte w).toNat * 256 + (loByte w).toNat := by
  rw [← hiLo_toNat, hiLo_bytes]

/-- Adding two words byte by byte, the carry of the low bytes taken into the sum of the high ones. -/
theorem hiLo_adcResult (u v : Addr) :
    hiLo (adcResult (hiByte u) (hiByte v) (adcCarry (loByte u) (loByte v) false))
      (adcResult (loByte u) (loByte v) false) = u + v ∧
    (adcCarry (hiByte u) (hiByte v) (adcCarry (loByte u) (loByte v) false) = true ↔ 65536 ≤ u.toNat + v.toNat) := by
  have hu := word_toNat u
  have hv := word_toNat v
  constructor
  · apply BitVec.eq_of_toNat_eq
    simp only [hiLo_toNat, adcResult_toNat, adcSum, adcCarry_toNat, BitVec.toNat_add, Bool.toNat_false]
    omega
  · simp only [← Bool.toNat_eq_one, adcCarry_toNat, adcSum, Bool.toNat_false]
    omega

/-! ## The data access that misses -/

theorem mode_eq_immediate_iff (i : Instr) : i.mode = .immediate ↔ ∃ v, i.operand = .immediate v := by
  rw [Instr.mode]
  cases i.operand <;> simp [Operand.mode]

/-- LDA, STA and ADC alike meet the memory fault at their effective address. -/
theorem effect_of_missing_data {i : Instr} {s : State} {ea : Addr} (hi : i.mnemonic ∈ [.lda, .sta, .adc])
    (him : ∀ v, i.operand ≠ .immediate v) (hea : s.effectiveAddress i.operand = .ok ea) (hb : s.hasByte ea = false) :
    effect i s = .error (.memoryFault ea) := by
  have read : s.operandByte i.operand = .error (.memoryFault ea) := by
    rw [State.operandByte_eq s _ ea him hea, State.memRead_error hb]
  simp only [List.mem_cons, List.not_mem_nil, or_false] at hi
  obtain hm | hm | hm := hi
  · simp only [effect, hm, read]
  · simp only [effect, hm, hea, State.memWrite_error s.a hb]
  · simp only [effect, hm, read]

theorem exec_of_missing_data {i : Instr} {s : State} {ea : Addr} (hi : i.mnemonic ∈ [.lda, .sta, .adc])
    (him : ∀ v, i.operand ≠ .immediate v) (hea : s.effectiveAddress i.operand = .ok ea) (hp : ¬ present s ea) :
    exec i s = .next (faultedWith s (.memoryFault ea (some i.opcode) s.pc)) := by
  rw [exec_eq_retire, effect_of_missing_data hi him hea ((hasByte_eq_false_iff s ea).2 hp), retire_error]
  rfl

end Sys2Proof.Machine

open Sys2Proof Sys2Proof.Machine

/-- Settles O24, by the frame of the six effects; advancing PC and taking a fault write none of the four. -/
theorem onlyTheNamedWritersWrite : Obligations.OnlyTheNamedWritersWrite := by
  intro i s t h
  obtain ⟨u, hu, rfl⟩ | ⟨c, -, rfl⟩ := exec_cases h
  · rw [State.advancePc_a, State.advancePc_x, State.advancePc_params]
    refine ⟨effect_a hu, effect_x hu, fun hm a => ?_, effect_params hu⟩
    rw [Claims.byteAt, State.advancePc_mem, effect_mem hu hm]
  · exact ⟨fun _ _ => rfl, fun _ _ => rfl, fun _ _ => rfl, rfl⟩

/-- Settles O15: the whole next state of STA, and reading after a write. -/
theorem staChangesOneByte : Obligations.StaChangesOneByte := by
  intro i s t ea hi hea hp h
  obtain rfl := Host.Outcome.next.inj ((exec_sta_at hi hea hp).symm.trans h)
  exact ⟨byteAt_stored_same s ea _, fun _ hb => byteAt_stored_other s _ hb, rfl, rfl, rfl, rfl, rfl, rfl⟩

/-- Settles O17: V is the overflow bit that ADC computes, which is signed overflow, said in sums and in sign bits. -/
theorem overflowIsSignedOverflow : Obligations.OverflowIsSignedOverflow := by
  intro s t m h
  obtain rfl := Host.Outcome.next.inj ((exec_adcImmediate m s).symm.trans h)
  rw [State.flag_advancePc, State.addWithCarry_flag_v, State.advancePc_a, State.addWithCarry_a]
  refine ⟨?_, ?_, Iff.rfl⟩
  · rw [s.signedSum_eq]
    exact adcOverflow_iff s.a m _
  · rw [adcOverflow_iff_msb]
    cases s.a.msb <;> cases m.msb <;> cases (adcResult s.a m (s.flag .c)).msb <;> decide

/-- Settles O21: LDA keeps the carry of the first ADC, which the second takes in. -/
theorem carryJoinsTwoByteSums : Obligations.CarryJoinsTwoByteSums := by
  intro s s1 s2 s3 u v ha hc h1 h2 h3
  obtain rfl := Host.Outcome.next.inj ((exec_adcImmediate _ s).symm.trans h1)
  obtain rfl := Host.Outcome.next.inj ((exec_ldaImmediate _ _).symm.trans h2)
  obtain rfl := Host.Outcome.next.inj ((exec_adcImmediate _ _).symm.trans h3)
  simp only [State.flag_advancePc, State.addWithCarry_flag_c, State.advancePc_a, State.addWithCarry_a, State.updateZN_a,
    State.setA_a, State.flag_updateZN (f := .c) nofun nofun, State.flag_setA, ha, hc]
  exact hiLo_adcResult u v

/-- Settles O30: the operand byte of LDA and ADC and the byte that STA writes are all at the effective address. -/
theorem missingDataByteFaults : Obligations.MissingDataByteFaults :=
  fun _ _ _ hi him hea hp => exec_of_missing_data hi (fun v hv => him ((mode_eq_immediate_iff _).2 ⟨v, hv⟩)) hea hp

/-- Settles O28: a step that ends Faulted is the fault taken in the state before it. -/
theorem faultsCommitNothing : Obligations.FaultsCommitNothing := by
  intro s t r h ht
  obtain ⟨rfl, -⟩ := step_faulted_cases h ht
  exact ⟨rfl, State.raise_faultRecord s r⟩

/-- Settles O29: a memory fault is of an address without a byte, and the full memory has none. -/
theorem fullMemoryHasNoMemoryFault : Obligations.FullMemoryHasNoMemoryFault := by
  intro s t hfull h a ob oa ht
  obtain ⟨-, ⟨-, hr⟩ | ⟨b, op, hb, -⟩⟩ := step_faulted_cases h ht
  · cases hr
  · exact (hasByte_eq_false_iff s b).1 hb (.inl hfull)

/-- Settles O27, by the run states other than Running. -/
theorem noStepIsANamedStop : Obligations.NoStepIsANamedStop :=
  fun _ => step_not_running

/-- Settles O49, by writing out each of the nine texts. -/
theorem assemblerTextOfTheExamples : Obligations.AssemblerTextOfTheExamples := by
  unfold Obligations.AssemblerTextOfTheExamples
  decide
end

section
/-! The fetch through the bytes at PC (40_engine.md R82 to R85): when it answers an instruction, and the faults where a byte
is missing or is no opcode (60_exceptions.md R133, R136, R138); what the step makes of them. -/

namespace Sys2Proof.Machine

open Sys2Proof.Claims

/-! ## Consecutive bytes -/

/-- The bytes memory lists at `n` consecutive addresses, modulo 65536 (R53). -/
def State.bytesFrom (s : State) (a : Addr) (n : Nat) : List Byte :=
  (List.range n).map fun k => byteAt s (a + BitVec.ofNat 16 k)

theorem addr_add_succ (a : Addr) (k : Nat) : a + BitVec.ofNat 16 (k + 1) = a + 1#16 + BitVec.ofNat 16 k := by
  rw [Nat.add_comm, BitVec.ofNat_add, BitVec.add_assoc]

theorem addr_add_zero (a : Addr) : a + BitVec.ofNat 16 0 = a := BitVec.add_zero a

theorem State.bytesFrom_succ (s : State) (a : Addr) (n : Nat) :
    s.bytesFrom a (n + 1) = byteAt s a :: s.bytesFrom (a + 1#16) n := by
  simp only [State.bytesFrom, List.range_succ_eq_map, List.map_cons, List.map_map, addr_add_zero]
  exact congrArg _ (List.map_congr_left fun k _ => congrArg (byteAt s) (addr_add_succ a k))

theorem State.take_bytesFrom (s : State) (a : Addr) {k n : Nat} (h : k ≤ n) :
    (s.bytesFrom a n).take k = s.bytesFrom a k := by
  rw [State.bytesFrom, ← List.map_take, List.take_range, Nat.min_eq_left h, State.bytesFrom]

theorem State.bytesAtPc_eq (s : State) : s.bytesAtPc = s.bytesFrom s.pc 3 := by
  rw [State.bytesFrom_succ, State.bytesFrom_succ, State.bytesFrom_succ, BitVec.add_assoc]
  rfl

theorem State.readBytes_succ_eq_ok_iff (s : State) (a : Addr) (n : Nat) (b : Byte) (bs : List Byte) :
    s.readBytes a (n + 1) = .ok (b :: bs) ↔ s.memRead a = .ok b ∧ s.readBytes (a + 1#16) n = .ok bs := by
  rw [State.readBytes]
  cases s.memRead a with
  | error c => simp
  | ok v => cases s.readBytes (a + 1#16) n <;> simp

/-- Bytes that are all there are read as memory lists them. -/
theorem State.readBytes_of_present (s : State) (n : Nat) : ∀ a : Addr,
    (∀ k < n, present s (a + BitVec.ofNat 16 k)) → s.readBytes a n = .ok (s.bytesFrom a n) := by
  induction n with
  | zero => intro a _; rfl
  | succ n ih =>
    intro a h
    have first : present s a := addr_add_zero a ▸ h 0 (Nat.zero_lt_succ n)
    have later := ih (a + 1#16) fun k hk => addr_add_succ a k ▸ h (k + 1) (Nat.succ_lt_succ hk)
    rw [State.bytesFrom_succ, State.readBytes_succ_eq_ok_iff]
    exact ⟨State.memRead_ok ((s.hasByte_iff a).2 first), later⟩

/-- Bytes that were read are all there. -/
theorem State.present_of_readBytes (s : State) (n : Nat) : ∀ {a : Addr} {bs : List Byte},
    s.readBytes a n = .ok bs → ∀ k < n, present s (a + BitVec.ofNat 16 k) := by
  induction n with
  | zero => intro a bs _ k hk; cases hk
  | succ n ih =>
    intro a bs h k hk
    obtain ⟨b, bs, rfl⟩ := List.exists_cons_of_length_eq_add_one (State.readBytes_length h)
    obtain ⟨first, later⟩ := (s.readBytes_succ_eq_ok_iff a n b bs).1 h
    cases k with
    | zero => exact (addr_add_zero a).symm ▸ (s.hasByte_iff a).1 (State.memRead_eq_ok first).1
    | succ k => exact addr_add_succ a k ▸ ih later k (Nat.lt_of_succ_lt_succ hk)

/-- The one address that may hold no byte (R35). -/
theorem eq_top_of_not_present {s : State} {a : Addr} (h : ¬ present s a) : a = 0xFFFF#16 :=
  not_not.1 (not_or.1 h).2

theorem State.readBytes_of_missing {s : State} {a : Addr} {k n : Nat} (hk : k < n)
    (h : ¬ present s (a + BitVec.ofNat 16 k)) : s.readBytes a n = .error (.memoryFault 0xFFFF#16) := by
  cases hr : s.readBytes a n with
  | ok bs => exact absurd (s.present_of_readBytes n hr k hk) h
  | error c =>
    obtain ⟨j, -, hj, rfl, -⟩ := State.readBytes_error hr
    rw [eq_top_of_not_present ((hasByte_eq_false_iff s _).1 hj)]

/-! ## The fetch -/

/-- An encoding is read opcode first, then the operand bytes (R53). -/
theorem State.readBytes_encode_iff (s : State) (a : Addr) (i : Instr) :
    s.readBytes a i.length = .ok (encode i) ↔
      s.memRead a = .ok i.opcode ∧ s.readBytes (a + 1#16) i.mode.operandBytes = .ok i.operand.bytes := by
  rw [Instr.length, Nat.add_comm, encode, State.readBytes_succ_eq_ok_iff]

/-- The fetch answers exactly the instruction whose encoding can be read at PC (R53, R82 to R84). -/
theorem State.fetch_eq_ok_iff (s : State) (i : Instr) :
    s.fetch = .ok i ↔ s.readBytes s.pc i.length = .ok (encode i) := by
  obtain ⟨d, hd, -, -, hlen⟩ := lookup_opcode i
  have operandBytes : d.length - 1 = i.mode.operandBytes := by rw [hlen, Instr.length, Nat.add_sub_cancel_left]
  rw [State.readBytes_encode_iff, ← operandBytes]
  constructor
  · intro h
    obtain ⟨-, e⟩ | ⟨-, -, e⟩ | ⟨d', a, -, -, -, e⟩ | ⟨d', bs, j, hb, hl, hr, hop, -, -, hbs, e⟩ := s.fetch_cases <;>
      cases h.symm.trans e
    rw [← hop, hd, Option.some.injEq] at hl
    subst hl
    exact ⟨by rw [State.memRead_ok hb, hop], hbs ▸ hr⟩
  · rintro ⟨hop, hbs⟩
    have decoded : decode (i.opcode :: i.operand.bytes) = .ok (i, []) := by
      simpa only [encode, List.append_nil] using decode_encode i []
    simp only [State.fetch, hop, hd, hbs, decoded]

/-- The three bytes at PC are enough for any opcode that stands first (R53). -/
theorem State.decode_bytesAtPc {s : State} {d : Descriptor} (h : lookup (byteAt s s.pc) = some d) :
    ∃ i rest, decode s.bytesAtPc = .ok (i, rest) ∧ i.opcode = byteAt s s.pc ∧ i.length = d.length := by
  have short : ∀ e ∈ opcodeTable, e.length ≤ 3 := by decide
  have hlen := short d (lookup_mem h).1
  have form := row_form h [byteAt s (s.pc + 1#16), byteAt s (s.pc + 2#16)]
  cases ho : operandOf d.mode [byteAt s (s.pc + 1#16), byteAt s (s.pc + 2#16)] with
  | none =>
    rw [ho] at form
    simp only [List.length_cons, List.length_nil] at form
    omega
  | some r =>
    obtain ⟨o, after⟩ := r
    rw [ho] at form
    obtain ⟨i, hi, hop, -, -, hil, -⟩ := form
    exact ⟨i, after, by simp only [State.bytesAtPc, decode, h, ho, hi], hop, hil⟩

theorem State.decode_bytesAtPc_of_lookup_none {s : State} (h : lookup (byteAt s s.pc) = none) :
    decode s.bytesAtPc = .error (.undecodable (byteAt s s.pc)) := by
  simp only [State.bytesAtPc, decode, h]

theorem State.fetch_of_decode {s : State} {i : Instr} {rest : List Byte} (h : decode s.bytesAtPc = .ok (i, rest))
    (hp : ∀ k < i.length, present s (s.pc + BitVec.ofNat 16 k)) : s.fetch = .ok i := by
  have bytes : s.bytesFrom s.pc i.length = encode i := by
    rw [← s.take_bytesFrom s.pc i.length_le, ← s.bytesAtPc_eq, decode_eq_ok h, ← encode_length, List.take_left]
  rw [State.fetch_eq_ok_iff, s.readBytes_of_present _ _ hp, bytes]

theorem State.fetch_of_no_opcode {s : State} (hp : present s s.pc) (h : byteAt s s.pc ∉ opcodeBytes) :
    s.fetch = .error (.decodeError (byteAt s s.pc) s.pc) := by
  have row := (lookup_eq_none_iff (byteAt s s.pc)).2 h
  simp only [State.fetch, State.memRead_ok ((s.hasByte_iff _).2 hp), row]

/-- An operand byte that is missing faults after the opcode byte was fetched (R132, R138). -/
theorem State.fetch_of_missing_operand {s : State} {d : Descriptor} {k : Nat} (hp : present s s.pc)
    (h : lookup (byteAt s s.pc) = some d) (hk : k < d.length) (hm : ¬ present s (s.pc + BitVec.ofNat 16 k)) :
    s.fetch = .error (.memoryFault 0xFFFF#16 (some (byteAt s s.pc)) s.pc) := by
  cases k with
  | zero => exact absurd hp (addr_add_zero s.pc ▸ hm)
  | succ k =>
    have missing := State.readBytes_of_missing (s := s) (a := s.pc + 1#16) (n := d.length - 1) (k := k) (by omega)
      (addr_add_succ s.pc k ▸ hm)
    simp only [State.fetch, State.memRead_ok ((s.hasByte_iff _).2 hp), h, missing, Cause.record]

/-! ## The resolver on the operand bytes -/

/-- The resolver answers the address of the operand whose bytes can be read at `pc`. -/
theorem State.resolve_of_readBytes {s : State} {o : Operand} {pc : Addr}
    (h : s.readBytes pc o.mode.operandBytes = .ok o.bytes) : s.resolve o.mode pc = s.effectiveAddressAt pc o := by
  have ho := operandOf_bytes o []
  rw [List.append_nil] at ho
  cases o with
  | noneAddressing => rfl
  | immediate b | zeroPage b | zeroPageX b | zeroPageY b | indirectX b | indirectY b =>
    obtain ⟨hb, -⟩ := (s.readBytes_succ_eq_ok_iff pc 0 b []).1 h
    obtain ⟨hpc, rfl⟩ := State.memRead_eq_ok hb
    exact State.resolve_of_operandOf_byte hpc ho
  | absolute w | absoluteX w | absoluteY w =>
    obtain ⟨hlo, hrest⟩ := (s.readBytes_succ_eq_ok_iff pc 1 (loByte w) [hiByte w]).1 h
    obtain ⟨hhi, -⟩ := (s.readBytes_succ_eq_ok_iff _ 0 (hiByte w) []).1 hrest
    obtain ⟨hpc, elo⟩ := State.memRead_eq_ok hlo
    obtain ⟨hpc', ehi⟩ := State.memRead_eq_ok hhi
    refine State.resolve_of_operandOf_word hpc hpc' ?_
    rw [← elo, ← ehi]
    exact ho

/-! ## The step over what was fetched -/

theorem step_of_decode {s : State} {i : Instr} {rest : List Byte} (hr : s.runState = .running)
    (h : decode s.bytesAtPc = .ok (i, rest)) (hp : ∀ k < i.length, present s (s.pc + BitVec.ofNat 16 k)) :
    step s = exec i s := by
  rw [step_running hr, State.fetch_of_decode h hp]

theorem step_of_no_opcode {s : State} (hr : s.runState = .running) (hp : present s s.pc)
    (h : byteAt s s.pc ∉ opcodeBytes) : step s = .next (faultedWith s (.decodeError (byteAt s s.pc) s.pc)) := by
  rw [step_running hr, State.fetch_of_no_opcode hp h]
  rfl

theorem step_of_missing_operand {s : State} {d : Descriptor} {k : Nat} (hr : s.runState = .running)
    (hp : present s s.pc) (h : lookup (byteAt s s.pc) = some d) (hk : k < d.length)
    (hm : ¬ present s (s.pc + BitVec.ofNat 16 k)) :
    step s = .next (faultedWith s (.memoryFault 0xFFFF#16 (some (byteAt s s.pc)) s.pc)) := by
  rw [step_running hr, State.fetch_of_missing_operand hp h hk hm]
  rfl

/-- What is fetched has its opcode byte at PC. -/
theorem State.opcode_of_fetch {s : State} {i : Instr} (h : s.fetch = .ok i) :
    present s s.pc ∧ byteAt s s.pc = i.opcode := by
  rw [State.fetch_eq_ok_iff, State.readBytes_encode_iff] at h
  obtain ⟨hb, hop⟩ := State.memRead_eq_ok h.1
  exact ⟨(s.hasByte_iff _).1 hb, hop.symm⟩

end Sys2Proof.Machine

open Sys2Proof Sys2Proof.Machine Sys2Proof.Claims

/-- Settles O7: the encoding of the decoded instruction can be read at PC, so the fetch answers it. -/
theorem stepRunsTheDecodedInstruction : Obligations.StepRunsTheDecodedInstruction :=
  fun _ _ _ => step_of_decode

/-- Settles O10: a byte that is no opcode has no row in the table. -/
theorem undecodableBytesFault : Obligations.UndecodableBytesFault :=
  fun _ => step_of_no_opcode

/-- Settles O31: the operand byte at 0xFFFF is the first of one or two, or the second of two. -/
theorem missingOperandByteFaults : Obligations.MissingOperandByteFaults := by
  intro s d hr hpar hl hpc
  have missing (a : Addr) : ¬ present s a ↔ a = 0xFFFF#16 := by simp [present, hpar]
  obtain ⟨hpc, hlen⟩ | ⟨hpc, hlen⟩ := hpc
  · have here : present s s.pc := .inr (by rw [hpc]; decide)
    exact step_of_missing_operand (k := 1) hr here hl hlen ((missing _).2 (by rw [hpc]; rfl))
  · have here : present s s.pc := .inr (by rw [hpc]; decide)
    exact step_of_missing_operand (k := 2) hr here hl (by omega) ((missing _).2 (by rw [hpc]; rfl))

/-- Settles O32: only BRK comes to Halted from Running, its opcode byte is 0x00, and where that byte stands it is run. -/
theorem haltComesOnlyFromBrk : Obligations.HaltComesOnlyFromBrk := by
  intro s t h
  have hr := (step_cases h).1
  constructor
  · intro ht
    obtain ⟨-, ⟨i, hf, he⟩ | ⟨r, -, rfl⟩⟩ := step_cases h
    · obtain rfl := eq_brk_of_exec_halted (by rw [hr]; nofun) he ht
      exact State.opcode_of_fetch hf
    · cases ht
  · rintro ⟨hp, hop⟩
    rw [step_of_noneAddressing (i := .brk) rfl hr hp hop, exec_brk] at h
    obtain rfl := Host.Outcome.next.inj h
    rfl

/-- Settles O33: the next state of STA is Running with A stored at its PC, and the step from it is told by the bytes there. -/
theorem storeIsSeenByTheNextFetch : Obligations.StoreIsSeenByTheNextFetch := by
  intro i s t hi hr hf h hea hp
  rw [step_running hr, hf] at h
  have whole := Host.Outcome.next.inj ((exec_sta_at hi hea hp).symm.trans h)
  have hA : byteAt t t.pc = s.a := by
    have same := byteAt_stored_same s t.pc (BitVec.ofNat 16 i.length)
    rwa [whole] at same
  have htr : t.runState = .running := by rw [← whole]; exact hr
  have htp : present t t.pc := by
    have params : t.params = s.params := by rw [← whole]; rfl
    rwa [present, params]
  refine ⟨?_, fun hop => ?_, fun hop => ?_⟩
  · rw [State.memRead_ok ((t.hasByte_iff _).2 htp)]
    exact congrArg Except.ok hA
  · rw [← hA] at hop ⊢
    obtain ⟨d, hd⟩ := Option.ne_none_iff_exists'.1 (mt (lookup_eq_none_iff _).1 (not_not.2 hop))
    obtain ⟨j, rest, hj, hjop, hjlen⟩ := State.decode_bytesAtPc hd
    refine ⟨j, rest, hj, hjop, step_of_decode htr hj, fun k hk hm => ?_⟩
    exact step_of_missing_operand htr htp hd (hjlen ▸ hk) hm
  · rw [← hA] at hop ⊢
    exact step_of_no_opcode htr htp hop

/-- Settles O35: each mode resolves the operand its byte makes, and the pointer of that operand is the one of R66, R67. -/
theorem resolverOfIndirectModes : Obligations.ResolverOfIndirectModes := by
  intro s pc hp
  have byte {m o} := State.resolve_of_operandOf_byte (m := m) (o := o) ((s.hasByte_iff pc).2 hp)
  have index : byteAt s pc + s.x = BitVec.ofNat 8 (((byteAt s pc).toNat + s.x.toNat) % 256) := by
    apply BitVec.eq_of_toNat_eq
    simp [BitVec.toNat_add]
  constructor
  · rw [byte rfl, ← index]
    exact s.readPointer_eq_pointer _
  · rw [byte rfl, ← ofNat_add_zext16, BitVec.ofNat_toNat, BitVec.setWidth_eq]
    exact s.effectiveAddress_indirectY (byteAt s pc)

/-- Settles O37: what was fetched has its operand bytes behind the opcode, and the resolver reads those. -/
theorem resolverAgreesWithTheMeanings : Obligations.ResolverAgreesWithTheMeanings := by
  intro s i h
  rw [State.fetch_eq_ok_iff, State.readBytes_encode_iff] at h
  exact State.resolve_of_readBytes h.2
end

section
/-! The accesses of a step (20_memory.md R51): the reads of the fetch and the accesses after it, up to the first that misses
(60_exceptions.md R138); that a memory fault is an access that misses, and that a step depends on nothing but them. -/

namespace Sys2Proof.Machine

open Sys2Proof.Claims

/-! ## Up to the first access that misses -/

theorem State.upToFault_append_of_present (s : State) (l l' : List Access) (h : ∀ x ∈ l, present s x.addr) :
    s.upToFault (l ++ l') = l ++ s.upToFault l' := by
  induction l with
  | nil => rfl
  | cons x l ih =>
    obtain ⟨hx, hl⟩ := List.forall_mem_cons.1 h
    rw [List.cons_append, State.upToFault, if_pos ((s.hasByte_iff _).2 hx), ih hl, List.cons_append]

theorem State.upToFault_append_of_missing (s : State) (l l' : List Access) (h : ∃ x ∈ l, ¬ present s x.addr) :
    s.upToFault (l ++ l') = s.upToFault l := by
  induction l with
  | nil => simp at h
  | cons x l ih =>
    rw [List.cons_append, State.upToFault, State.upToFault]
    by_cases hx : present s x.addr
    · rw [ih ((List.or_exists_of_exists_mem_cons h).resolve_left (not_not.2 hx))]
    · rw [if_neg (mt (s.hasByte_iff _).1 hx), if_neg (mt (s.hasByte_iff _).1 hx)]

/-- The access at which a list is cut is the last one issued. -/
theorem State.upToFault_singleton (s : State) (x : Access) : s.upToFault [x] = [x] := by
  rw [State.upToFault, State.upToFault, ite_self]

theorem State.mem_of_mem_upToFault {s : State} {l : List Access} {x : Access} (h : x ∈ s.upToFault l) : x ∈ l := by
  induction l with
  | nil => exact h
  | cons y l ih =>
    rw [State.upToFault] at h
    split at h
    · exact List.mem_cons.2 ((List.mem_cons.1 h).imp_right ih)
    · exact List.mem_cons.2 ((List.mem_cons.1 h).imp_right fun hx => absurd hx List.not_mem_nil)

/-- Cutting a list at the first access that misses keeps an access that misses. -/
theorem State.exists_missing_upToFault {s : State} {l : List Access} (h : ∃ x ∈ l, ¬ present s x.addr) :
    ∃ x ∈ s.upToFault l, ¬ present s x.addr := by
  by_contra hall
  simp only [not_exists, not_and, not_not] at hall
  induction l with
  | nil => simp at h
  | cons y l ih =>
    rw [State.upToFault] at hall
    by_cases hy : present s y.addr
    · rw [if_pos ((s.hasByte_iff _).2 hy)] at hall
      exact ih ((List.or_exists_of_exists_mem_cons h).resolve_left (not_not.2 hy)) (List.forall_mem_cons.1 hall).2
    · rw [if_neg (mt (s.hasByte_iff _).1 hy)] at hall
      exact hy (hall y List.mem_cons_self)

theorem State.upToFault_eq_issuedOf (s : State) (l : List Access) : s.upToFault l = issuedOf s l := by
  induction l with
  | nil => rfl
  | cons x l ih =>
    rw [State.upToFault, issuedOf]
    by_cases hx : present s x.addr
    · rw [if_pos ((s.hasByte_iff _).2 hx), if_pos hx, ih]
    · rw [if_neg (mt (s.hasByte_iff _).1 hx), if_neg hx]

theorem State.stepAccesses_running {s : State} (h : s.runState = .running) :
    s.stepAccesses = s.upToFault s.accessPlan := by
  rw [State.stepAccesses, h]

/-! ## The parts of the plan -/

/-- The reads of the fetch: the opcode byte and the operand bytes, that of Immediate included. -/
def State.fetchReads (s : State) (i : Instr) : List Access :=
  (List.range i.length).map fun k => .read (s.pc + BitVec.ofNat 16 k)

/-- The accesses after the fetch: the pointer's bytes, then the data, which Immediate has from the fetch. -/
def State.laterAccesses (s : State) (i : Instr) : List Access :=
  s.pointerReads i.operand ++ if i.mode = .immediate then [] else s.dataAccess i

theorem State.mem_fetchReads {s : State} {i : Instr} {x : Access} :
    x ∈ s.fetchReads i ↔ ∃ k < i.length, x = .read (s.pc + BitVec.ofNat 16 k) := by
  simp only [State.fetchReads, List.mem_map, List.mem_range, eq_comm]

theorem mnemonic_of_operand {i : Instr} (h : i.operand ≠ .noneAddressing) : i.mnemonic ∈ [.lda, .sta, .adc] := by
  cases i <;> simp_all [Instr.operand, Instr.mnemonic]

/-- STA has no Immediate form (R72). -/
theorem mnemonic_ne_sta_of_immediate {i : Instr} {v : Byte} (h : i.operand = .immediate v) : i.mnemonic ≠ .sta := by
  cases i <;> simp_all [Instr.operand, Instr.mnemonic]

theorem State.operand_ne_none_of_effectiveAddress {s : State} {o : Operand} {ea : Addr}
    (h : s.effectiveAddress o = .ok ea) : o ≠ .noneAddressing := by
  rintro rfl
  cases h

/-- One data access where there is an effective address: a write for STA, a read for LDA and ADC. -/
theorem State.dataAccess_of_effectiveAddress {s : State} {i : Instr} {ea : Addr}
    (h : s.effectiveAddress i.operand = .ok ea) : s.dataAccess i = [dataAccessAt i ea] := by
  have hi := mnemonic_of_operand (State.operand_ne_none_of_effectiveAddress h)
  simp only [List.mem_cons, List.not_mem_nil, or_false] at hi
  obtain hm | hm | hm := hi <;> simp [State.dataAccess, h, dataAccessAt, hm]

/-- An access of the data is at the effective address. -/
theorem State.mem_dataAccess {s : State} {i : Instr} {x : Access} (h : x ∈ s.dataAccess i) :
    ∃ ea, s.effectiveAddress i.operand = .ok ea ∧ x = dataAccessAt i ea := by
  cases hea : s.effectiveAddress i.operand with
  | error c => simp [State.dataAccess, hea] at h
  | ok ea =>
    rw [State.dataAccess_of_effectiveAddress hea, List.mem_singleton] at h
    exact ⟨ea, rfl, h⟩

theorem dataAccessAt_addr (i : Instr) (ea : Addr) : (dataAccessAt i ea).addr = ea := by
  unfold dataAccessAt
  split <;> rfl

/-- The data access follows the fetch, in every mode but Immediate. -/
theorem State.dataAccessAt_mem_later {s : State} {i : Instr} {ea : Addr} (hea : s.effectiveAddress i.operand = .ok ea)
    (him : ∀ v, i.operand ≠ .immediate v) : dataAccessAt i ea ∈ s.laterAccesses i := by
  have himm : i.mode ≠ .immediate := fun h => ((mode_eq_immediate_iff i).1 h).elim him
  rw [State.laterAccesses, if_neg himm, State.dataAccess_of_effectiveAddress hea]
  exact List.mem_append_right _ List.mem_cons_self

/-- The plan of R51 in the order of the spec's table, form by form. -/
theorem State.accessPlan_eq_ordered {s : State} {i : Instr} {rest : List Byte}
    (h : decode s.bytesAtPc = .ok (i, rest)) : s.accessPlan = orderedAccesses s i := by
  have data (ea : Addr) := State.dataAccess_of_effectiveAddress (s := s) (i := i) (ea := ea)
  simp only [State.accessPlan, h]
  cases ho : i.operand with
  | noneAddressing => simp [orderedAccesses, State.dataAccess, State.effectiveAddress, State.effectiveAddressAt, ho,
      Instr.mode, Operand.mode, operandReads, State.pointerReads]
  | immediate v =>
    have read : dataAccessAt i (s.pc + 1#16) = .read (s.pc + 1#16) := if_neg (mnemonic_ne_sta_of_immediate ho)
    rw [data (s.pc + 1#16) (by rw [ho]; rfl), read]
    simp [orderedAccesses, ho, Instr.mode, Operand.mode, operandReads, State.pointerReads]
  | zeroPage b | zeroPageX b | zeroPageY b | absolute b | absoluteX b | absoluteY b =>
    rw [data _ (by rw [ho]; rfl)]
    simp [orderedAccesses, ho, Instr.mode, Operand.mode, operandReads, State.pointerReads]
  | indirectX b =>
    rw [data _ (by rw [ho]; exact s.effectiveAddress_indirectX b)]
    simp [orderedAccesses, ho, Instr.mode, Operand.mode, operandReads, State.pointerReads, State.pointerHighAddress_eq]
  | indirectY b =>
    rw [data _ (by rw [ho]; exact s.effectiveAddress_indirectY b)]
    simp [orderedAccesses, ho, Instr.mode, Operand.mode, operandReads, State.pointerReads, State.pointerHighAddress_eq]

/-- The plan is the reads of the fetch and the accesses after it. -/
theorem State.accessPlan_of_decode {s : State} {i : Instr} {rest : List Byte}
    (h : decode s.bytesAtPc = .ok (i, rest)) : s.accessPlan = s.fetchReads i ++ s.laterAccesses i := by
  simp only [State.accessPlan, h]
  cases ho : i.operand with
  | immediate v =>
    have read : dataAccessAt i (s.pc + 1#16) = .read (s.pc + 1#16) := if_neg (mnemonic_ne_sta_of_immediate ho)
    rw [State.dataAccess_of_effectiveAddress (ea := s.pc + 1#16) (by rw [ho]; rfl), read]
    simp [State.fetchReads, State.laterAccesses, ho, Instr.length, Instr.mode, Operand.mode, Mode.operandBytes,
      operandReads, State.pointerReads, List.range_succ]
  | _ =>
    simp [State.fetchReads, State.laterAccesses, ho, Instr.length, Instr.mode, Operand.mode, Mode.operandBytes,
      operandReads, List.range_succ]

/-- The pointer's bytes lie in page zero or next to it, where no byte is missing. -/
theorem State.present_of_mem_pointerReads {s : State} {o : Operand} {x : Access} (h : x ∈ s.pointerReads o) :
    present s x.addr := by
  have page (b : Byte) : present s (Access.read (zext16 b)).addr := present_zext16 s b
  have high (b : Byte) : present s (Access.read (s.pointerHighAddress b)).addr :=
    (s.hasByte_iff _).1 (s.hasByte_of_lt _ (s.pointerHighAddress_lt b))
  cases o with
  | indirectX b | indirectY b =>
    obtain rfl | hx := List.mem_cons.1 h
    · exact page _
    · rw [List.mem_singleton.1 hx]
      exact high _
  | _ => cases h

theorem State.read_of_mem_pointerReads {s : State} {o : Operand} {x : Access} (h : x ∈ s.pointerReads o) :
    ∃ a, x = .read a := by
  cases o with
  | indirectX b | indirectY b =>
    obtain hx | hx := List.mem_cons.1 h
    · exact ⟨_, hx⟩
    · exact ⟨_, List.mem_singleton.1 hx⟩
  | _ => cases h

/-! ## The accesses of a step by its fetch -/

theorem State.decode_of_fetch {s : State} {i : Instr} (h : s.fetch = .ok i) :
    (∃ rest, decode s.bytesAtPc = .ok (i, rest)) ∧ ∀ x ∈ s.fetchReads i, present s x.addr := by
  have read := (s.fetch_eq_ok_iff i).1 h
  have there := s.present_of_readBytes _ read
  have bytes : s.bytesFrom s.pc i.length = encode i :=
    Except.ok.inj ((s.readBytes_of_present _ _ there).symm.trans read)
  have split : s.bytesAtPc = encode i ++ s.bytesAtPc.drop i.length := by
    rw [← bytes, ← s.take_bytesFrom _ i.length_le, ← s.bytesAtPc_eq, List.take_append_drop]
  refine ⟨⟨_, (congrArg decode split).trans (decode_encode i _)⟩, fun x hx => ?_⟩
  obtain ⟨k, hk, rfl⟩ := State.mem_fetchReads.1 hx
  exact there k hk

/-- A step that fetches an instruction issues the whole plan: only its last access can miss. -/
theorem State.stepAccesses_of_fetch {s : State} {i : Instr} (hr : s.runState = .running) (h : s.fetch = .ok i) :
    s.stepAccesses = s.fetchReads i ++ s.laterAccesses i := by
  obtain ⟨⟨rest, decoded⟩, there⟩ := State.decode_of_fetch h
  have last : s.upToFault (if i.mode = .immediate then [] else s.dataAccess i) =
      if i.mode = .immediate then [] else s.dataAccess i := by
    split
    · rfl
    · cases hea : s.effectiveAddress i.operand with
      | error c => simp [State.dataAccess, hea, State.upToFault]
      | ok ea => rw [State.dataAccess_of_effectiveAddress hea, State.upToFault_singleton]
  rw [State.stepAccesses_running hr, State.accessPlan_of_decode decoded, s.upToFault_append_of_present _ _ there,
    State.laterAccesses, s.upToFault_append_of_present _ _ fun _ => State.present_of_mem_pointerReads, last]

theorem State.stepAccesses_of_missing_opcode {s : State} (hr : s.runState = .running) (hp : ¬ present s s.pc) :
    s.stepAccesses = [.read s.pc] := by
  rw [State.stepAccesses_running hr, State.accessPlan, ← List.singleton_append,
    s.upToFault_append_of_missing _ _ ⟨.read s.pc, List.mem_singleton_self _, hp⟩, State.upToFault_singleton]

theorem State.stepAccesses_of_no_opcode {s : State} (hr : s.runState = .running)
    (h : lookup (byteAt s s.pc) = none) : s.stepAccesses = [.read s.pc] := by
  simp only [State.stepAccesses_running hr, State.accessPlan, State.decode_bytesAtPc_of_lookup_none h,
    State.upToFault_singleton]

/-- Where an operand byte misses, the accesses are those reads of the fetch that come to it. -/
theorem State.stepAccesses_of_missing_operand {s : State} {i : Instr} {rest : List Byte} {k : Nat}
    (hr : s.runState = .running) (h : decode s.bytesAtPc = .ok (i, rest)) (hk : k < i.length)
    (hm : ¬ present s (s.pc + BitVec.ofNat 16 k)) : s.stepAccesses = s.upToFault (s.fetchReads i) := by
  rw [State.stepAccesses_running hr, State.accessPlan_of_decode h]
  exact s.upToFault_append_of_missing _ _ ⟨_, State.mem_fetchReads.2 ⟨k, hk, rfl⟩, hm⟩

theorem State.fetch_of_missing_opcode {s : State} (hp : ¬ present s s.pc) :
    s.fetch = .error (.memoryFault s.pc none s.pc) := by
  rw [State.fetch, State.memRead_error ((hasByte_eq_false_iff s _).2 hp)]

/-- THE STEP BY WHAT IT FETCHES: nothing, a byte that is no opcode, an opcode some of whose operand bytes are missing, or an
instruction. -/
theorem State.fetch_access_cases {s : State} (hr : s.runState = .running) :
    (¬ present s s.pc ∧ s.stepAccesses = [.read s.pc] ∧ s.fetch = .error (.memoryFault s.pc none s.pc)) ∨
    (present s s.pc ∧ byteAt s s.pc ∉ opcodeBytes ∧ s.stepAccesses = [.read s.pc] ∧
      s.fetch = .error (.decodeError (byteAt s s.pc) s.pc)) ∨
    (∃ d k, present s s.pc ∧ lookup (byteAt s s.pc) = some d ∧ k < d.length ∧
      ¬ present s (s.pc + BitVec.ofNat 16 k) ∧ .read s.pc ∈ s.stepAccesses ∧
      (∃ x ∈ s.stepAccesses, ¬ present s x.addr) ∧ (∀ x ∈ s.stepAccesses, ∃ a, x = .read a) ∧
      s.fetch = .error (.memoryFault 0xFFFF#16 (some (byteAt s s.pc)) s.pc)) ∨
    (∃ i, s.stepAccesses = s.fetchReads i ++ s.laterAccesses i ∧ s.fetch = .ok i) := by
  by_cases hp : present s s.pc
  · refine .inr ?_
    cases hl : lookup (byteAt s s.pc) with
    | none =>
      have hop := (lookup_eq_none_iff _).1 hl
      exact .inl ⟨hp, hop, State.stepAccesses_of_no_opcode hr hl, State.fetch_of_no_opcode hp hop⟩
    | some d =>
      refine .inr ?_
      obtain ⟨i, rest, decoded, -, hlen⟩ := State.decode_bytesAtPc hl
      by_cases hall : ∀ k < i.length, present s (s.pc + BitVec.ofNat 16 k)
      · have hf := State.fetch_of_decode decoded hall
        exact .inr ⟨i, State.stepAccesses_of_fetch hr hf, hf⟩
      · simp only [not_forall] at hall
        obtain ⟨k, hk, hm⟩ := hall
        have acc := State.stepAccesses_of_missing_operand hr decoded hk hm
        refine .inl ⟨d, k, hp, rfl, hlen ▸ hk, hm, ?_, ?_, fun x hx => ?_,
          State.fetch_of_missing_operand hp hl (hlen ▸ hk) hm⟩
        · rw [State.stepAccesses_running hr, State.accessPlan, ← List.singleton_append,
            s.upToFault_append_of_present [.read s.pc] _ (List.forall_mem_singleton.2 hp)]
          exact List.mem_cons_self
        · rw [acc]
          exact State.exists_missing_upToFault ⟨_, State.mem_fetchReads.2 ⟨k, hk, rfl⟩, hm⟩
        · rw [acc] at hx
          obtain ⟨j, -, rfl⟩ := State.mem_fetchReads.1 (State.mem_of_mem_upToFault hx)
          exact ⟨_, rfl⟩
  · exact .inl ⟨hp, State.stepAccesses_of_missing_opcode hr hp, State.fetch_of_missing_opcode hp⟩

theorem exec_of_effect_error {i : Instr} {s : State} {c : Cause} (h : effect i s = .error c) :
    exec i s = .next (s.raise (c.record i.mnemonic i.opcode s.pc)) := by
  rw [exec_eq_retire, h, retire_error]

/-- After the fetch only the data access can miss; it does exactly when the instruction faults. -/
theorem effect_error_iff {i : Instr} {s : State} :
    (∃ c, effect i s = .error c) ↔ ∃ x ∈ s.laterAccesses i, ¬ present s x.addr := by
  constructor
  · rintro ⟨c, hc⟩
    obtain ⟨ea, hea, hb, -, him, -⟩ := effect_error_cases hc
    exact ⟨_, State.dataAccessAt_mem_later hea him, by rw [dataAccessAt_addr]; exact (hasByte_eq_false_iff s ea).1 hb⟩
  · rintro ⟨x, hx, hm⟩
    obtain hx | hx := List.mem_append.1 hx
    · exact absurd (State.present_of_mem_pointerReads hx) hm
    · split at hx
      · cases hx
      · rename_i himm
        obtain ⟨ea, hea, rfl⟩ := State.mem_dataAccess hx
        rw [dataAccessAt_addr] at hm
        exact ⟨_, effect_of_missing_data (mnemonic_of_operand (State.operand_ne_none_of_effectiveAddress hea))
          (fun v hv => himm ((mode_eq_immediate_iff i).2 ⟨v, hv⟩)) hea ((hasByte_eq_false_iff s ea).2 hm)⟩

/-- A step meets a memory fault exactly when one of its accesses misses (R136, R138). -/
theorem step_memoryFault_iff {s : State} (hr : s.runState = .running) :
    (∃ t a ob oa, step s = .next t ∧ t.runState = .faulted (.memoryFault a ob oa)) ↔
      ∃ x ∈ s.stepAccesses, ¬ present s x.addr := by
  rw [step_running hr]
  obtain ⟨hp, acc, hf⟩ | ⟨hp, -, acc, hf⟩ | ⟨d, k, -, -, -, -, -, miss, -, hf⟩ | ⟨i, acc, hf⟩ :=
    State.fetch_access_cases hr <;> rw [hf]
  · exact iff_of_true ⟨_, _, _, _, rfl, rfl⟩ ⟨.read s.pc, acc ▸ List.mem_cons_self, hp⟩
  · refine iff_of_false ?_ ?_
    · rintro ⟨t, a, ob, oa, ht, hfault⟩
      obtain rfl := Host.Outcome.next.inj ht
      cases hfault
    · rintro ⟨x, hx, hm⟩
      rw [acc, List.mem_singleton] at hx
      exact hm (hx ▸ hp)
  · exact iff_of_true ⟨_, _, _, _, rfl, rfl⟩ miss
  · have fetched : ¬ ∃ x ∈ s.fetchReads i, ¬ present s x.addr := by
      rintro ⟨x, hx, hm⟩
      exact hm ((State.decode_of_fetch hf).2 x hx)
    have split : (∃ x ∈ s.stepAccesses, ¬ present s x.addr) ↔ ∃ x ∈ s.laterAccesses i, ¬ present s x.addr := by
      simp only [acc, List.mem_append, or_and_right, exists_or, fetched, false_or]
    rw [split, ← effect_error_iff]
    constructor
    · rintro ⟨t, a, ob, oa, ht, hfault⟩
      obtain ⟨u, hu, rfl⟩ | ⟨c, hc, -⟩ := exec_cases ht
      · obtain same | halted := effect_runState hu
        · rw [State.advancePc_runState, same, hr] at hfault
          cases hfault
        · rw [State.advancePc_runState, halted] at hfault
          cases hfault
      · exact ⟨c, hc⟩
    · rintro ⟨c, hc⟩
      obtain ⟨ea, -, -, rfl, -, -⟩ := effect_error_cases hc
      exact ⟨_, _, _, _, exec_of_effect_error hc, rfl⟩

theorem issuedOf_full {s : State} (h : s.params.memSize = .full) (l : List Access) : issuedOf s l = l := by
  induction l with
  | nil => rfl
  | cons x l ih => rw [issuedOf, if_pos (.inl h), ih]

end Sys2Proof.Machine

open Sys2Proof Sys2Proof.Machine

/-- Settles O41: the plan is the spec's list, cut at the first access that misses. -/
theorem accessOrderOfAStep : Obligations.AccessOrderOfAStep := by
  refine fun s hr => ⟨fun i rest h => ?_, fun h => ?_⟩
  · have acc : s.stepAccesses = Claims.issuedOf s (Claims.orderedAccesses s i) := by
      rw [State.stepAccesses_running hr, State.accessPlan_eq_ordered h, State.upToFault_eq_issuedOf]
    exact ⟨acc, fun hfull => acc.trans (issuedOf_full hfull _)⟩
  · obtain hp | hop := h
    · exact State.stepAccesses_of_missing_opcode hr hp
    · exact State.stepAccesses_of_no_opcode hr ((lookup_eq_none_iff _).2 hop)

/-- Settles O42: by what the step fetches, an access misses where the fetch or the data access faults, and nowhere else. -/
theorem memoryFaultIffAnAccessMisses : Obligations.MemoryFaultIffAnAccessMisses :=
  fun _ => step_memoryFault_iff
end

section
/-! A step over another memory (20_memory.md R51 "and no others"): where that memory agrees on the bytes the step reads, the
step comes to the same registers and run state and writes the same byte. -/

namespace Sys2Proof.Machine

open Sys2Proof.Claims

/-! ## What a step over another memory may come to -/

/-- `o` is `.next t` over memory `m` in place of that of `s`: equal but for memory, the same byte written where the accesses
have a write that finds one, every other byte of either memory kept. -/
def SameStepOver (s t : State) (m : Memory) (o : Host.Outcome State Fault Refusal) : Prop :=
  ∃ t', o = .next t' ∧ { t' with mem := t.mem } = t ∧
    ∀ a : Addr,
      (.write a ∈ s.stepAccesses → present s a → byteAt t' a = byteAt t a) ∧
      (.write a ∉ s.stepAccesses ∨ ¬ present s a → byteAt t' a = m.read a.toNat ∧ byteAt t a = byteAt s a)

theorem sameStepOver_of_no_write {s t : State} {m : Memory} {o : Host.Outcome State Fault Refusal}
    (ho : o = .next (t.setMem m)) (ht : t.mem = s.mem) (hw : ∀ a, .write a ∈ s.stepAccesses → ¬ present s a) :
    SameStepOver s t m o := by
  refine ⟨_, ho, rfl, fun a => ⟨fun h hp => absurd hp (hw a h), fun _ => ⟨rfl, ?_⟩⟩⟩
  rw [byteAt, ht]

theorem sameStepOver_of_write {s t : State} {m : Memory} {o : Host.Outcome State Fault Refusal} {ea : Addr} {v : Byte}
    (ho : o = .next (t.setMem (m.write ea.toNat v))) (ht : t.mem = s.mem.write ea.toNat v) (hp : present s ea)
    (hw : ∀ a, .write a ∈ s.stepAccesses ↔ a = ea) : SameStepOver s t m o := by
  refine ⟨_, ho, rfl, fun a => ⟨fun h _ => ?_, fun h => ?_⟩⟩
  · obtain rfl := (hw a).1 h
    rw [byteAt, byteAt, ht, State.setMem_mem, Memory.read_write_same, Memory.read_write_same]
  · have apart : a.toNat ≠ ea.toNat := by
      refine mt BitVec.eq_of_toNat_eq fun e => ?_
      rw [hw, e] at h
      exact h.elim (fun ne => ne rfl) (fun np => np hp)
    rw [byteAt, byteAt, ht, State.setMem_mem]
    exact ⟨m.read_write_other v apart, s.mem.read_write_other v apart⟩

/-! ## The fetch over another memory -/

theorem State.readBytes_setMem {s : State} {m : Memory} {a : Addr} {n : Nat} {bs : List Byte}
    (h : s.readBytes a n = .ok bs)
    (hm : ∀ k < n, m.read (a + BitVec.ofNat 16 k).toNat = byteAt s (a + BitVec.ofNat 16 k)) :
    (s.setMem m).readBytes a n = .ok bs := by
  have there := s.present_of_readBytes n h
  have same : (s.setMem m).bytesFrom a n = s.bytesFrom a n :=
    List.map_congr_left fun k hk => hm k (List.mem_range.1 hk)
  rw [(s.setMem m).readBytes_of_present n a there, same, ← s.readBytes_of_present n a there, h]

theorem State.fetch_setMem {s : State} {m : Memory} {i : Instr} (h : s.fetch = .ok i)
    (hm : ∀ a, .read a ∈ s.fetchReads i → m.read a.toNat = byteAt s a) : (s.setMem m).fetch = .ok i := by
  rw [State.fetch_eq_ok_iff] at h ⊢
  exact State.readBytes_setMem h fun k hk => hm _ (State.mem_fetchReads.2 ⟨k, hk, rfl⟩)

/-- A step whose fetch faults has read the byte at PC, and has written nothing. -/
theorem State.reads_of_fetch_error {s : State} {r : FaultRecord} (hr : s.runState = .running)
    (h : s.fetch = .error r) : .read s.pc ∈ s.stepAccesses ∧ ∀ x ∈ s.stepAccesses, ∃ a, x = .read a := by
  have single (acc : s.stepAccesses = [.read s.pc]) :
      .read s.pc ∈ s.stepAccesses ∧ ∀ x ∈ s.stepAccesses, ∃ a, x = .read a := by
    rw [acc]
    exact ⟨List.mem_cons_self, List.forall_mem_singleton.2 ⟨_, rfl⟩⟩
  obtain ⟨-, acc, -⟩ | ⟨-, -, acc, -⟩ | ⟨d, k, -, -, -, -, hpc, -, reads, -⟩ | ⟨i, -, hf⟩ := State.fetch_access_cases hr
  · exact single acc
  · exact single acc
  · exact ⟨hpc, reads⟩
  · cases h.symm.trans hf

/-- A fault of the fetch depends on memory through the byte at PC alone. -/
theorem State.fetch_error_setMem {s : State} {m : Memory} {r : FaultRecord} (hr : s.runState = .running)
    (h : s.fetch = .error r) (hpc : byteAt (s.setMem m) s.pc = byteAt s s.pc) : (s.setMem m).fetch = .error r := by
  obtain ⟨hp, -, hf⟩ | ⟨hp, hop, -, hf⟩ | ⟨d, k, hp, hl, hk, hmiss, -, -, -, hf⟩ | ⟨i, -, hf⟩ :=
    State.fetch_access_cases hr <;> cases h.symm.trans hf
  · exact State.fetch_of_missing_opcode (s := s.setMem m) hp
  · rw [← hpc] at hop ⊢
    exact State.fetch_of_no_opcode (s := s.setMem m) hp hop
  · rw [← hpc] at hl ⊢
    exact State.fetch_of_missing_operand (s := s.setMem m) hp hl hk hmiss

/-! ## The instruction over another memory -/

/-- The effective address depends on memory through the pointer's bytes alone. -/
theorem State.effectiveAddress_setMem {s : State} {m : Memory} {o : Operand}
    (hm : ∀ a, .read a ∈ s.pointerReads o → m.read a.toNat = byteAt s a) :
    (s.setMem m).effectiveAddress o = s.effectiveAddress o := by
  have pointer_same (b : Byte) (hlo : m.read (zext16 b).toNat = byteAt s (zext16 b))
      (hhi : m.read (s.pointerHighAddress b).toNat = byteAt s (s.pointerHighAddress b)) :
      pointer (s.setMem m) b = pointer s b := by
    rw [State.pointerHighAddress_eq] at hhi
    exact congrArg₂ hiLo hhi hlo
  cases o with
  | indirectX b =>
    rw [State.effectiveAddress_indirectX, State.effectiveAddress_indirectX]
    exact congrArg _ (pointer_same _ (hm _ List.mem_cons_self) (hm _ (List.mem_cons_of_mem _ List.mem_cons_self)))
  | indirectY b =>
    rw [State.effectiveAddress_indirectY, State.effectiveAddress_indirectY]
    rw [pointer_same _ (hm _ List.mem_cons_self) (hm _ (List.mem_cons_of_mem _ List.mem_cons_self))]
    rfl
  | _ => rfl

/-- The operand byte depends on memory through the effective address and the byte there. -/
theorem State.operandByte_setMem {s : State} {m : Memory} {o : Operand}
    (hea : (s.setMem m).effectiveAddress o = s.effectiveAddress o)
    (hm : ∀ ea, s.effectiveAddress o = .ok ea → (∀ v, o ≠ .immediate v) → m.read ea.toNat = byteAt s ea) :
    (s.setMem m).operandByte o = s.operandByte o := by
  by_cases him : ∃ v, o = .immediate v
  · obtain ⟨v, rfl⟩ := him
    rfl
  · have him (v : Byte) : o ≠ .immediate v := fun hv => him ⟨v, hv⟩
    cases h : s.effectiveAddress o with
    | error c =>
      obtain ⟨rfl, -⟩ := State.effectiveAddressAt_eq_error h
      rfl
    | ok ea =>
      rw [State.operandByte_eq s o ea him h, State.operandByte_eq _ o ea him (hea.trans h), State.memRead, State.memRead,
        State.hasByte_setMem, State.setMem_mem, hm ea h him]

/-- Where the operand byte is the same, an instruction other than STA leaves the other memory as it is. -/
theorem exec_setMem {i : Instr} {s t : State} {m : Memory} (hi : i.mnemonic ≠ .sta)
    (ho : (s.setMem m).operandByte i.operand = s.operandByte i.operand) (h : exec i s = .next t) :
    exec i (s.setMem m) = .next (t.setMem m) := by
  have same : effect i (s.setMem m) = (effect i s).map (·.setMem m) := by
    cases hm : i.mnemonic with
    | sta => exact absurd hm hi
    | lda | adc =>
      simp only [effect, hm, ho]
      cases s.operandByte i.operand <;> rfl
    | tax | inx | brk =>
      simp only [effect, hm]
      rfl
  rw [exec_eq_retire, same]
  obtain ⟨u, hu, rfl⟩ | ⟨c, hc, rfl⟩ := exec_cases h
  · rw [hu]
    rfl
  · rw [hc]
    rfl

theorem exec_mem {i : Instr} {s t : State} (hi : i.mnemonic ≠ .sta) (h : exec i s = .next t) : t.mem = s.mem := by
  obtain ⟨u, hu, rfl⟩ | ⟨c, -, rfl⟩ := exec_cases h
  · rw [State.advancePc_mem, effect_mem hu hi]
  · rfl

/-- The write of a step that fetched an instruction: the data access of STA. -/
theorem State.write_mem_fetched {s : State} {i : Instr} {a : Addr}
    (h : .write a ∈ s.fetchReads i ++ s.laterAccesses i) : .write a ∈ s.dataAccess i := by
  obtain h | h := List.mem_append.1 h
  · obtain ⟨k, -, hk⟩ := State.mem_fetchReads.1 h
    cases hk
  · obtain h | h := List.mem_append.1 h
    · obtain ⟨b, hb⟩ := State.read_of_mem_pointerReads h
      cases hb
    · split at h
      · cases h
      · exact h

theorem State.write_mem_dataAccess {s : State} {i : Instr} {a : Addr} (h : .write a ∈ s.dataAccess i) :
    i.mnemonic = .sta ∧ s.effectiveAddress i.operand = .ok a := by
  obtain ⟨ea, hea, hx⟩ := State.mem_dataAccess h
  unfold dataAccessAt at hx
  split at hx
  · obtain rfl := Access.write.inj hx
    exact ⟨‹_›, hea⟩
  · cases hx

/-- STA has an effective address, whatever its form. -/
theorem State.effectiveAddress_of_sta {i : Instr} (s : State) (hi : i.mnemonic = .sta) :
    ∃ ea, s.effectiveAddress i.operand = .ok ea := by
  cases h : s.effectiveAddress i.operand with
  | ok ea => exact ⟨ea, rfl⟩
  | error c =>
    obtain hm | hm | hm := operand_of_mnemonic i (State.effectiveAddressAt_eq_error h).1 <;> cases hi.symm.trans hm

/-- An instruction over another memory that agrees on the bytes its step reads. -/
theorem exec_sameStepOver {i : Instr} {s t : State} {m : Memory}
    (hacc : s.stepAccesses = s.fetchReads i ++ s.laterAccesses i)
    (hm : ∀ a, .read a ∈ s.stepAccesses → m.read a.toNat = byteAt s a) (h : exec i s = .next t) :
    SameStepOver s t m (exec i (s.setMem m)) := by
  have write_is (a : Addr) (ha : .write a ∈ s.stepAccesses) := State.write_mem_dataAccess
    (State.write_mem_fetched (hacc ▸ ha))
  have later {x : Access} (hx : x ∈ s.laterAccesses i) : x ∈ s.stepAccesses := hacc ▸ List.mem_append_right _ hx
  have hea := State.effectiveAddress_setMem (o := i.operand) fun a ha => hm a (later (List.mem_append_left _ ha))
  by_cases hi : i.mnemonic = .sta
  · have him (v : Byte) : i.operand ≠ .immediate v := fun hv => mnemonic_ne_sta_of_immediate hv hi
    obtain ⟨ea, ha⟩ := s.effectiveAddress_of_sta hi
    by_cases hp : present s ea
    · obtain rfl := Host.Outcome.next.inj ((exec_sta_at hi ha hp).symm.trans h)
      refine sameStepOver_of_write (exec_sta_at hi (hea.trans ha) hp) rfl hp fun a => ⟨fun hw => ?_, ?_⟩
      · exact Except.ok.inj ((write_is a hw).2.symm.trans ha)
      · rintro rfl
        have data := State.dataAccessAt_mem_later ha him
        rw [dataAccessAt, if_pos hi] at data
        exact later data
    · have hil : i.mnemonic ∈ [.lda, .sta, .adc] := by rw [hi]; decide
      obtain rfl := Host.Outcome.next.inj ((exec_of_missing_data hil him ha hp).symm.trans h)
      refine sameStepOver_of_no_write (exec_of_missing_data hil him (hea.trans ha) hp) rfl fun a hw => ?_
      rwa [Except.ok.inj ((write_is a hw).2.symm.trans ha)]
  · refine sameStepOver_of_no_write (exec_setMem hi ?_ h) (exec_mem hi h) fun a hw => absurd (write_is a hw).1 hi
    refine State.operandByte_setMem hea fun ea ha him => hm ea ?_
    have data := State.dataAccessAt_mem_later ha him
    rw [dataAccessAt, if_neg hi] at data
    exact later data

theorem step_of_fetch_error {s : State} {r : FaultRecord} (hr : s.runState = .running) (hf : s.fetch = .error r) :
    step s = .next (s.raise r) := by
  rw [step_running hr, hf]

/-- A step over another memory that agrees on the bytes it reads: a fault of the fetch is the same fault, an instruction
the same instruction. -/
theorem step_sameStepOver {s t : State} {m : Memory} (h : step s = .next t)
    (hm : ∀ a, .read a ∈ s.stepAccesses → m.read a.toNat = byteAt s a) :
    SameStepOver s t m (step (s.setMem m)) := by
  have hr := (step_cases h).1
  cases hf : s.fetch with
  | error r =>
    obtain ⟨hpc, reads⟩ := State.reads_of_fetch_error hr hf
    have hf' := State.fetch_error_setMem hr hf (hm _ hpc)
    obtain rfl := Host.Outcome.next.inj ((step_of_fetch_error hr hf).symm.trans h)
    refine sameStepOver_of_no_write (step_of_fetch_error (s := s.setMem m) hr hf') rfl fun a ha => ?_
    obtain ⟨b, hb⟩ := reads _ ha
    cases hb
  | ok i =>
    have acc := State.stepAccesses_of_fetch hr hf
    have hf' := State.fetch_setMem hf fun a ha => hm a (acc ▸ List.mem_append_left _ ha)
    rw [step_running hr, hf] at h
    rw [step_running (s := s.setMem m) hr, hf']
    exact exec_sameStepOver acc hm h

end Sys2Proof.Machine

open Sys2Proof Sys2Proof.Machine

/-- Settles O43: by what the step fetches, since the fetch reads the bytes at PC, and the instruction its pointer and its data. -/
theorem stepTouchesOnlyItsAccesses : Obligations.StepTouchesOnlyItsAccesses :=
  fun _ _ _ => step_sameStepOver
end
